-- ==== Sys2Proof/Word.lean ====
section
/-! DEFINITION. The word types of the core and their plainest arithmetic (00_scope.md R5, R6). -/

namespace Sys2Proof

/-- One cell of BYTEBUF (10_state.md R19). -/
abbrev Byte := BitVec 8

/-- A symbol is "a byte value (0–255)" (00_scope.md R5 `SYM_BITS`, R8). -/
abbrev Symbol := BitVec 8

/-- One frequency: 32 bits, unsigned (00_scope.md R5 `WEIGHT_BITS`). -/
abbrev Weight := BitVec 32

/-- A priority-queue weight: 40 bits, unsigned (00_scope.md R5 `SUM_BITS`). -/
abbrev SumWeight := BitVec 40

/-- A node reference: 9 bits, bit 8 telling a leaf from an internal node (10_state.md R14). -/
abbrev NodeRef := BitVec 9

/-- A command word (00_scope.md R5 `CMD_BITS`, 30_encoding.md R60). -/
abbrev CmdWord := BitVec 48

/-- A response word (00_scope.md R5 `RSP_BITS`, 30_encoding.md R61). -/
abbrev RspWord := BitVec 48

/-- A bit sequence, earliest bit first; 0 is false, 1 is true (00_scope.md R6). -/
abbrev BitSeq := List Bool

end Sys2Proof
end

