-- ==== Sys2Proof/Config.lean ====
section
/-! DEFINITION. What an implementation of the core fixes (00_scope.md R5) and what the spec leaves free. -/

namespace Sys2Proof

/-- The implementation parameters a model takes as arguments: BYTECAP alone (00_scope.md R5,
92_eei_decisions.md D4). An instance of it stands in `State`, written by no step (log 1). -/
structure Config where
  /-- `BYTECAP`, the capacity of BYTEBUF in bytes. -/
  bytecap : Nat
  deriving DecidableEq, Repr

/-- `BITCAP = 8 × BYTECAP`, the capacity of BITBUF in bits (00_scope.md R5). -/
def Config.bitcap (c : Config) : Nat := 8 * c.bytecap

/-- The range the spec gives the parameter: `1 ≤ BYTECAP ≤ 2^20` (00_scope.md R5). -/
abbrev Config.legal (c : Config) : Prop := 1 ≤ c.bytecap ∧ c.bytecap ≤ 2 ^ 20

/-- The spec's default, `BYTECAP = 4096` (00_scope.md R5). -/
def Config.standard : Config := { bytecap := 4096 }

/-- FREE VALUE: how many further clock edges the `n`-th accepted command stays in BUSY after its
first one. "The number of clock edges between acceptance and `rsp_valid` is finite and otherwise
unspecified" (30_encoding.md R69, 70_reset_and_hazards.md R200). DESIGN CHOICE (log 5): nothing is
known of it; safe. -/
opaque Config.busyEdges : Nat → Nat

end Sys2Proof
end

