-- ==== Sys2Proof/Syntax.lean ====
section
/-! DEFINITION. The commands of LEHC-1 as syntax: one constructor per row of the opcode table
(30_encoding.md R63), the raw fields of a command word (R60), and the pseudo-commands (R67). -/

namespace Sys2Proof

/-- The 19 commands. An operand is what 30_encoding.md R62 says the field holds: a symbol or byte
(field A), one bit (A[0]), a weight, an index or a register number (field D). -/
inductive Instr where
  /-- `NOP` (R80). -/
  | nop
  /-- `RDSR n`: read status register (R81). -/
  | rdsr (n : BitVec 32)
  /-- `FCLR`: empty the frequency table (R82). -/
  | fclr
  /-- `FSET s, w`: set the weight of a symbol (R83). -/
  | fset (s : Symbol) (w : Weight)
  /-- `FGET s`: read one entry of the frequency table (R84). -/
  | fget (s : Symbol)
  /-- `BUILD`: build the tree and the codebook (R100). -/
  | build
  /-- `NGET k`: read internal node (R85). -/
  | nget (k : BitVec 32)
  /-- `CLEN s`: read the code length of a symbol (R86). -/
  | clen (s : Symbol)
  /-- `CLRBY`: empty the byte buffer (R87). -/
  | clrby
  /-- `PUSHBY b`: append one byte (R88). -/
  | pushby (b : Byte)
  /-- `GETBY i`: read one byte (R89). -/
  | getby (i : BitVec 32)
  /-- `CLRBI`: empty the bit buffer (R90). -/
  | clrbi
  /-- `PUSHBI v`: append one bit (R91). -/
  | pushbi (v : Bool)
  /-- `GETBI i`: read one bit (R92). -/
  | getbi (i : BitVec 32)
  /-- `ENCODE`: encode the byte buffer into the bit buffer (R130). -/
  | encode
  /-- `DECODE`: decode the bit buffer, flush mode (R140). -/
  | decode
  /-- `DECODES`: decode the bit buffer, strict mode (R140). -/
  | decodes
  /-- `UNPACK`: bytes to bits (R160). -/
  | unpack
  /-- `PACK`: bits to bytes (R161). -/
  | pack
  deriving DecidableEq, Repr

/-- The three fields of a command word, before anything is said of their legality
(30_encoding.md R60). -/
structure Fields where
  /-- `OP`, bits [47:40]. -/
  op : BitVec 8
  /-- `A`, bits [39:32]. -/
  a : BitVec 8
  /-- `D`, bits [31:0]. -/
  d : BitVec 32
  deriving DecidableEq, Repr

/-- Why a command word matches no row of the opcode table (30_encoding.md R64). The core answers
IllegalCommand whichever it is; the names are the model's own (log 18). -/
inductive Illegal where
  /-- An `OP` value not in the table. -/
  | unassignedOp
  /-- A non-zero `A` in a command that has no such operand. -/
  | nonzeroA
  /-- A non-zero `D` in a command that has no such operand. -/
  | nonzeroD
  /-- `PUSHBI` with `A ≥ 2`. -/
  | bitOutOfRange
  /-- `OP = 0x41` with `A ≥ 2`. -/
  | modeOutOfRange
  deriving DecidableEq, Repr

/-- The pseudo-commands of 30_encoding.md R67. -/
inductive Pseudo where
  /-- `PUSHS "text"`. -/
  | pushs (text : List Symbol)
  /-- `PUSHBITS b0b1...bn`. -/
  | pushbits (bits : BitSeq)
  /-- `LOADF` of the pairs `s1:w1, s2:w2, ...`. -/
  | loadf (pairs : List (Symbol × Weight))
  deriving DecidableEq, Repr

end Sys2Proof
end

