-- ==== Sys2Proof/WellFormed.lean ====
section
/-! DEFINITION. Which raw command words are well formed (30_encoding.md R63, R64). An `Instr` has
exact operand types, so every `Instr` is a command; what can be ill formed is the triple of fields a
host presents. The checks are written from R64's list of illegal words, apart from the decoder. -/

namespace Sys2Proof

/-- Whether `OP` is one of the 18 assigned opcode values (30_encoding.md R63). -/
def Fields.opAssigned (f : Fields) : Bool :=
  f.op.toNat ∈ [0x00, 0x01, 0x10, 0x11, 0x12, 0x20, 0x21, 0x22, 0x30, 0x31, 0x32, 0x38, 0x39, 0x3A,
    0x40, 0x41, 0x48, 0x49]

/-- Whether the command named by `OP` carries a whole-byte operand in `A`: FSET, FGET, CLEN, PUSHBY
(30_encoding.md R63). -/
def Fields.hasA (f : Fields) : Bool := f.op.toNat ∈ [0x11, 0x12, 0x22, 0x31]

/-- Whether the command named by `OP` carries a single bit in `A[0]`: PUSHBI and the decode mode
(30_encoding.md R62, R63). -/
def Fields.hasBitA (f : Fields) : Bool := f.op.toNat ∈ [0x39, 0x41]

/-- Whether the command named by `OP` carries an operand in `D`: RDSR, FSET, NGET, GETBY, GETBI
(30_encoding.md R63). -/
def Fields.hasD (f : Fields) : Bool := f.op.toNat ∈ [0x01, 0x11, 0x21, 0x32, 0x3A]

/-- `A` is legal: anything where it is an operand, 0 or 1 where it is one bit, zero otherwise
(30_encoding.md R64). -/
def Fields.aLegal (f : Fields) : Bool := f.hasA || (f.hasBitA && f.a.toNat < 2) || f.a == 0

/-- `D` is legal: anything where it is an operand, zero otherwise (30_encoding.md R64). -/
def Fields.dLegal (f : Fields) : Bool := f.hasD || f.d == 0

/-- The fields make one of the 19 commands (30_encoding.md R63, R64). -/
def Fields.wellFormed (f : Fields) : Bool := f.opAssigned && f.aLegal && f.dLegal

end Sys2Proof
end

