-- ==== Sys2Proof/Decode.lean ====
section
/-! DEFINITION. The decoder of command words, total on 48-bit words and rejecting by name
(30_encoding.md R60 to R64), the encoder written from the same table, the table itself as data, and
the expansion of the pseudo-commands (R67). -/

namespace Sys2Proof

/-- The fields of a command word: `OP` [47:40], `A` [39:32], `D` [31:0] (30_encoding.md R60). -/
def fieldsOf (w : CmdWord) : Fields :=
  { op := w.extractLsb' 40 8, a := w.extractLsb' 32 8, d := w.extractLsb' 0 32 }

/-- The command word with the given fields (30_encoding.md R60). -/
def wordOf (f : Fields) : CmdWord := f.op ++ f.a ++ f.d

/-- A row of the table whose `A` and `D` columns are both 0. -/
def noOperand (f : Fields) (i : Instr) : Except Illegal Instr :=
  if f.a ≠ 0 then .error .nonzeroA else if f.d ≠ 0 then .error .nonzeroD else .ok i

/-- A row whose `A` column is 0 and whose `D` column is an operand. -/
def operandD (f : Fields) (i : BitVec 32 → Instr) : Except Illegal Instr :=
  if f.a ≠ 0 then .error .nonzeroA else .ok (i f.d)

/-- A row whose `A` column is an operand and whose `D` column is 0. -/
def operandA (f : Fields) (i : BitVec 8 → Instr) : Except Illegal Instr :=
  if f.d ≠ 0 then .error .nonzeroD else .ok (i f.a)

/-- Rows that use `A[0]` as one bit, `A[7:1]` being required to be zero (30_encoding.md R62); `bad`
names the refusal of another `A`. -/
def operandBit (f : Fields) (bad : Illegal) (i : Bool → Instr) : Except Illegal Instr :=
  if 2 ≤ f.a.toNat then .error bad else if f.d ≠ 0 then .error .nonzeroD else .ok (i (f.a.getLsbD 0))

/-- The command the fields stand for, row by row of 30_encoding.md R63. -/
def decodeFields (f : Fields) : Except Illegal Instr :=
  if f.op = 0x00#8 then noOperand f .nop
  else if f.op = 0x01#8 then operandD f .rdsr
  else if f.op = 0x10#8 then noOperand f .fclr
  else if f.op = 0x11#8 then .ok (.fset f.a f.d)
  else if f.op = 0x12#8 then operandA f .fget
  else if f.op = 0x20#8 then noOperand f .build
  else if f.op = 0x21#8 then operandD f .nget
  else if f.op = 0x22#8 then operandA f .clen
  else if f.op = 0x30#8 then noOperand f .clrby
  else if f.op = 0x31#8 then operandA f .pushby
  else if f.op = 0x32#8 then operandD f .getby
  else if f.op = 0x38#8 then noOperand f .clrbi
  else if f.op = 0x39#8 then operandBit f .bitOutOfRange .pushbi
  else if f.op = 0x3A#8 then operandD f .getbi
  else if f.op = 0x40#8 then noOperand f .encode
  else if f.op = 0x41#8 then operandBit f .modeOutOfRange (fun m => if m then .decodes else .decode)
  else if f.op = 0x48#8 then noOperand f .unpack
  else if f.op = 0x49#8 then noOperand f .pack
  else .error .unassignedOp

/-- The decoder: the command a word stands for, or the name of what makes it illegal
(30_encoding.md R63, R64). -/
def decode (w : CmdWord) : Except Illegal Instr := decodeFields (fieldsOf w)

/-- One bit as the field `A` (30_encoding.md R62). -/
def bitField (v : Bool) : BitVec 8 := if v then 1 else 0

/-- The fields of each command, column by column of 30_encoding.md R63. -/
def Instr.fields : Instr → Fields
  | .nop => { op := 0x00, a := 0, d := 0 }
  | .rdsr n => { op := 0x01, a := 0, d := n }
  | .fclr => { op := 0x10, a := 0, d := 0 }
  | .fset s w => { op := 0x11, a := s, d := w }
  | .fget s => { op := 0x12, a := s, d := 0 }
  | .build => { op := 0x20, a := 0, d := 0 }
  | .nget k => { op := 0x21, a := 0, d := k }
  | .clen s => { op := 0x22, a := s, d := 0 }
  | .clrby => { op := 0x30, a := 0, d := 0 }
  | .pushby b => { op := 0x31, a := b, d := 0 }
  | .getby i => { op := 0x32, a := 0, d := i }
  | .clrbi => { op := 0x38, a := 0, d := 0 }
  | .pushbi v => { op := 0x39, a := bitField v, d := 0 }
  | .getbi i => { op := 0x3A, a := 0, d := i }
  | .encode => { op := 0x40, a := 0, d := 0 }
  | .decode => { op := 0x41, a := 0, d := 0 }
  | .decodes => { op := 0x41, a := 1, d := 0 }
  | .unpack => { op := 0x48, a := 0, d := 0 }
  | .pack => { op := 0x49, a := 0, d := 0 }

/-- The encoder: the command word of a command (30_encoding.md R60, R63). -/
def encode (i : Instr) : CmdWord := wordOf i.fields

/-- The mnemonic of a command, as the opcode table spells it (30_encoding.md R63). -/
def Instr.mnemonic : Instr → String
  | .nop => "NOP"
  | .rdsr _ => "RDSR"
  | .fclr => "FCLR"
  | .fset _ _ => "FSET"
  | .fget _ => "FGET"
  | .build => "BUILD"
  | .nget _ => "NGET"
  | .clen _ => "CLEN"
  | .clrby => "CLRBY"
  | .pushby _ => "PUSHBY"
  | .getby _ => "GETBY"
  | .clrbi => "CLRBI"
  | .pushbi _ => "PUSHBI"
  | .getbi _ => "GETBI"
  | .encode => "ENCODE"
  | .decode => "DECODE"
  | .decodes => "DECODES"
  | .unpack => "UNPACK"
  | .pack => "PACK"

/-- One row of the opcode table: "a word `w` is the command of a row exactly when
`w AND mask = match`" (30_encoding.md R63). -/
structure OpcodeRow where
  /-- The row's mnemonic. -/
  mnemonic : String
  /-- The row's `match`. -/
  pattern : CmdWord
  /-- The row's `mask`. -/
  mask : CmdWord
  deriving DecidableEq, Repr

/-- A word is the command of a row (30_encoding.md R63). -/
def OpcodeRow.covers (r : OpcodeRow) (w : CmdWord) : Bool := w &&& r.mask == r.pattern

/-- The opcode table with the `match` and `mask` columns of 30_encoding.md R63, row by row. -/
def opcodeTable : List OpcodeRow :=
  [ ⟨"NOP", 0x000000000000, 0xFFFFFFFFFFFF⟩,
    ⟨"RDSR", 0x010000000000, 0xFFFF00000000⟩,
    ⟨"FCLR", 0x100000000000, 0xFFFFFFFFFFFF⟩,
    ⟨"FSET", 0x110000000000, 0xFF0000000000⟩,
    ⟨"FGET", 0x120000000000, 0xFF00FFFFFFFF⟩,
    ⟨"BUILD", 0x200000000000, 0xFFFFFFFFFFFF⟩,
    ⟨"NGET", 0x210000000000, 0xFFFF00000000⟩,
    ⟨"CLEN", 0x220000000000, 0xFF00FFFFFFFF⟩,
    ⟨"CLRBY", 0x300000000000, 0xFFFFFFFFFFFF⟩,
    ⟨"PUSHBY", 0x310000000000, 0xFF00FFFFFFFF⟩,
    ⟨"GETBY", 0x320000000000, 0xFFFF00000000⟩,
    ⟨"CLRBI", 0x380000000000, 0xFFFFFFFFFFFF⟩,
    ⟨"PUSHBI", 0x390000000000, 0xFFFEFFFFFFFF⟩,
    ⟨"GETBI", 0x3A0000000000, 0xFFFF00000000⟩,
    ⟨"ENCODE", 0x400000000000, 0xFFFFFFFFFFFF⟩,
    ⟨"DECODE", 0x410000000000, 0xFFFFFFFFFFFF⟩,
    ⟨"DECODES", 0x410100000000, 0xFFFFFFFFFFFF⟩,
    ⟨"UNPACK", 0x480000000000, 0xFFFFFFFFFFFF⟩,
    ⟨"PACK", 0x490000000000, 0xFFFFFFFFFFFF⟩ ]

/-- The expansion of a pseudo-command into commands, in order (30_encoding.md R67). -/
def Pseudo.expand : Pseudo → List Instr
  | .pushs text => text.map .pushby
  | .pushbits bits => bits.map .pushbi
  | .loadf pairs => .fclr :: pairs.map (fun p => .fset p.1 p.2)

/-- The command word of a table row given as a number: the table numbers the one 48-bit word with
bit 0 its least significant bit (30_encoding.md R60, R65); bits from `nbits` up are zero. -/
def tableWord (nbits w : Nat) : CmdWord := BitVec.ofNat 48 (w % 2 ^ nbits)

/-- The instruction the decoder reads from a word of the opcode table, `none` where it refuses. -/
def decodeTableWord (nbits w : Nat) : Option Instr :=
  match decode (tableWord nbits w) with
  | .ok i => some i
  | .error _ => none

end Sys2Proof
end

