-- ==== Sys2Proof/Machine/State.lean ====
section
/-! DEFINITION. The architectural state of the core as plain data (10_state.md), the reasons a step
can stop, and the state after reset (10_state.md R29, 70_reset_and_hazards.md R190). -/

namespace Sys2Proof.Machine

/-- One entry of the arena: the left and the right child of an internal node (10_state.md R15). -/
structure NodeEntry where
  /-- `L`, the left child. -/
  left : NodeRef
  /-- `R`, the right child. -/
  right : NodeRef
  deriving DecidableEq, Repr

/-- A memory indexed by symbol, as a list of (symbol, value) pairs with the symbols strictly rising;
a symbol that is not listed is absent (FREQ: 10_state.md R10; CODE: R17). -/
abbrev Table (α : Type) := List (Symbol × α)

/-- `PHASE` (10_state.md R24). -/
inductive Phase where
  /-- The core can accept a command. -/
  | idle
  /-- The core runs the accepted command word, with `edges` further clock edges to go before the one
  at which the command's rule has run to its end (`edges` is the model's own, log 5). -/
  | busy (cmd : CmdWord) (edges : Nat)
  /-- RSPREG holds a response the host has not taken yet. -/
  | resp
  deriving DecidableEq, Repr

/-- The input pins as a rising edge of `clk` sees them (10_state.md R28). -/
structure Pins where
  /-- `rst`, synchronous reset. -/
  rst : Bool
  /-- `cmd_valid`. -/
  cmdValid : Bool
  /-- `cmd_word`. -/
  cmdWord : CmdWord
  /-- `rsp_ready`. -/
  rspReady : Bool
  deriving DecidableEq, Repr

/-- The state of the core (10_state.md R10 to R24), its parameter, and the host's pins to come. -/
structure State where
  /-- The parameter BYTECAP of this instance (00_scope.md R5); no step writes it (log 1). -/
  config : Config
  /-- FREQ: the present symbols with their weights (10_state.md R10, log 12). -/
  freq : Table Weight
  /-- TVALID: a tree and its codebook exist (10_state.md R11). -/
  tvalid : Bool
  /-- NSYM: the number of leaves of the tree (10_state.md R12). -/
  nsym : BitVec 9
  /-- ROOT: the reference of the root (10_state.md R13). -/
  root : NodeRef
  /-- NODE: the arena, entry 0 first; entries past the list hold no defined value (10_state.md R15). -/
  node : List NodeEntry
  /-- CODE: the valid symbols with their codes, earliest bit first (10_state.md R17). -/
  code : Table BitSeq
  /-- BYTEBUF, the cells in use; BYTELEN is the list's length (10_state.md R19, log 3, log 14). -/
  byteBuf : List Byte
  /-- BITBUF, the cells in use; BITLEN is the list's length (10_state.md R20, log 3, log 14). -/
  bitBuf : BitSeq
  /-- PHASE (10_state.md R24). -/
  phase : Phase
  /-- RSPREG (10_state.md R24, R28). -/
  rspreg : RspWord
  /-- The pins the host will drive at the coming clock edges, the next edge first (log 6). -/
  pins : List Pins
  /-- The model's own counter of accepted commands, which selects the free length of BUSY (log 5). -/
  accepted : Nat
  deriving DecidableEq, Repr

/-- Why the model stops. No command of the core hangs or traps (60_exceptions.md R184); the eight
errors of R170 are next states, not faults. -/
inductive Fault where
  /-- Raised by DECODE and DECODES alone, when the walk from ROOT through NODE takes more steps than
  any walk of a tree can (44_decoder.md R153): NODE then holds no tree, against 10_state.md R16,
  which no run of the core reaches. Safe (log 9). -/
  | treeWalkUnbounded
  deriving DecidableEq, Repr

/-- Why the model gives an instruction no meaning. -/
inductive Refusal where
  /-- Raised by `exec`'s arm of an instruction that has no meaning yet. Safe. No arm is left so. -/
  | notModelled (mnemonic : String)
  deriving DecidableEq, Repr

/-- The state right after reset (10_state.md R29): an empty frequency table, no tree, both buffers
empty, IDLE. The parameter has its default (00_scope.md R5, log 1). R29 leaves NODE, CODE, the cells
of the buffers and RSPREG unspecified and unreadable: they are empty or zero here (DESIGN CHOICE,
logs 2, 3, 4; unsafe). The host has driven nothing yet (log 6). -/
def State.reset : State where
  config := Config.standard
  freq := []
  tvalid := false
  nsym := 0
  root := 0
  node := []
  code := []
  byteBuf := []
  bitBuf := []
  phase := .idle
  rspreg := 0
  pins := []
  accepted := 0

end Sys2Proof.Machine
end

