-- ==== Sys2Proof/Machine/Ops.lean ====
section
/-! DEFINITION. The shared operations of the machine: the symbol-indexed memories, node references
and the arena, the two buffers, and the two ways a command ends: with a response, or with one of the
eight errors (the core's only exceptions, 60_exceptions.md R170 to R176). -/

namespace Sys2Proof.Machine

/-! ### Symbol-indexed memories (FREQ and CODE) -/

/-- The entry of a symbol, if it is present. -/
def Table.read {α : Type} : Table α → Symbol → Option α
  | [], _ => none
  | (k, v) :: t, s => if k = s then some v else Table.read t s

/-- Give a symbol a value: its old value is replaced, a new symbol takes its place in the rising
order ("map keys unique", 10_state.md R10, 40_host_access.md R83). -/
def Table.write {α : Type} : Table α → Symbol → α → Table α
  | [], s, x => [(s, x)]
  | (k, v) :: t, s, x =>
    if s < k then (s, x) :: (k, v) :: t
    else if s = k then (s, x) :: t
    else (k, v) :: Table.write t s x

/-- The canonical form: the symbols strictly rise, so equal tables are equal lists. -/
abbrev Table.wf {α : Type} (t : Table α) : Prop := (t.map (fun e => e.1.toNat)).Pairwise (· < ·)

/-! ### Node references (10_state.md R14) -/

/-- `isInt(r)`: bit 8 is 1. -/
def isInt (r : NodeRef) : Bool := r.getLsbD 8

/-- `isLeaf(r)`: bit 8 is 0. -/
def isLeaf (r : NodeRef) : Bool := !isInt r

/-- `sym(r)`: the symbol of a leaf reference. -/
def sym (r : NodeRef) : Symbol := r.extractLsb' 0 8

/-- `idx(r)`: the arena index of an internal reference. -/
def idx (r : NodeRef) : Nat := (r.extractLsb' 0 8).toNat

/-- `leafref(s) = {0b0, s}`. -/
def leafref (s : Symbol) : NodeRef := 0#1 ++ s

/-- `intref(k) = {0b1, k}`. -/
def intref (k : Nat) : NodeRef := 1#1 ++ BitVec.ofNat 8 k

/-- `NODE[k]`. An entry past the list holds no defined value and reads 0, 0 here; no command of a
reachable state reads one (10_state.md R15, log 13). -/
def nodeAt (nodes : List NodeEntry) (k : Nat) : NodeEntry := nodes.getD k ⟨0, 0⟩

/-- The child of an internal reference on an edge: left on 0, right on 1 (44_decoder.md R144,
42_codebook.md R120). -/
def child (nodes : List NodeEntry) (r : NodeRef) (b : Bool) : NodeRef :=
  if b then (nodeAt nodes (idx r)).right else (nodeAt nodes (idx r)).left

/-! ### The two buffers -/

/-- BYTELEN (10_state.md R19). -/
def State.bytelen (s : State) : Nat := s.byteBuf.length

/-- BITLEN (10_state.md R20). -/
def State.bitlen (s : State) : Nat := s.bitBuf.length

/-- `BYTEBUF[i]`, with a value only for the cells in use (10_state.md R19). -/
def State.byteAt (s : State) (i : Nat) : Option Byte := s.byteBuf[i]?

/-- `BITBUF[i]`, with a value only for the cells in use (10_state.md R20). -/
def State.bitAt (s : State) (i : Nat) : Option Bool := s.bitBuf[i]?

/-- Append one byte: `BYTEBUF[BYTELEN] <- b; BYTELEN <- BYTELEN + 1` (40_host_access.md R88). -/
def State.pushByte (s : State) (b : Byte) : State := { s with byteBuf := s.byteBuf ++ [b] }

/-- Append one bit: `BITBUF[BITLEN] <- v; BITLEN <- BITLEN + 1` (40_host_access.md R91). -/
def State.pushBit (s : State) (v : Bool) : State := { s with bitBuf := s.bitBuf ++ [v] }

/-- Replace the whole content of BYTEBUF (20_memory.md R53). -/
def State.putBytes (s : State) (bytes : List Byte) : State := { s with byteBuf := bytes }

/-- Replace the whole content of BITBUF (20_memory.md R53). -/
def State.putBits (s : State) (bits : BitSeq) : State := { s with bitBuf := bits }

/-! ### How a command ends -/

/-- The eight errors (60_exceptions.md R170). -/
inductive Error where
  /-- BUILD with no symbol present in FREQ. -/
  | emptyFrequencyTable
  /-- ENCODE meets a byte with no code. -/
  | unknownSymbol
  /-- PACK with `BITLEN mod 8 ≠ 0`. -/
  | unalignedBitLength
  /-- DECODES reaches the end of BITBUF with a symbol in flight. -/
  | incompleteCode
  /-- A tree-dependent command while TVALID = 0. -/
  | noTree
  /-- A result that does not fit its buffer. -/
  | capacityExceeded
  /-- An index past the end. -/
  | indexOutOfRange
  /-- A command word that matches no row of the opcode table. -/
  | illegalCommand
  deriving DecidableEq, Repr

/-- The status code of an error (60_exceptions.md R170). -/
def Error.code : Error → BitVec 8
  | .emptyFrequencyTable => 0x01
  | .unknownSymbol => 0x02
  | .unalignedBitLength => 0x03
  | .incompleteCode => 0x04
  | .noTree => 0x05
  | .capacityExceeded => 0x06
  | .indexOutOfRange => 0x07
  | .illegalCommand => 0x08

/-- `ST = 0x00 (OK)` (60_exceptions.md R170). -/
def okCode : BitVec 8 := 0x00

/-- A response word: `ST` [47:40], `A` [39:32], `D` [31:0] (30_encoding.md R61). -/
def responseWord (st a : BitVec 8) (d : BitVec 32) : RspWord := st ++ a ++ d

/-- The response word goes to RSPREG and the phase to RESP (10_state.md R24, 60_exceptions.md
R175). -/
def State.withResponse (s : State) (w : RspWord) : State := { s with phase := .resp, rspreg := w }

/-- `respond(a, d)`: the command ends with `ST = OK` (00_scope.md R6). -/
def respond (a : BitVec 8) (d : BitVec 32) (s : State) : Host.Outcome State Fault Refusal :=
  .next (s.withResponse (responseWord okCode a d))

/-- `raise <Error>(a, d)`: the command ends with the error response and writes no other state
(00_scope.md R6, 60_exceptions.md R172, R175). There is no vector, no saved state and no mode. -/
def raise (e : Error) (a : BitVec 8) (d : BitVec 32) (s : State) :
    Host.Outcome State Fault Refusal :=
  .next (s.withResponse (responseWord e.code a d))

/-- The return from an error, which is that from any response: once the host has taken it the core is
IDLE, and nothing is restored (60_exceptions.md R176, 10_state.md R24). -/
def State.responseTaken (s : State) : State := { s with phase := .idle }

/-! ### The form of the memories -/

/-- Every memory is in its canonical form and within its capacity (10_state.md R10, R15, R17, R19,
R20). -/
abbrev Memory.wf (s : State) : Prop :=
  Table.wf s.freq ∧ Table.wf s.code ∧ s.node.length ≤ 255 ∧
    s.bytelen ≤ s.config.bytecap ∧ s.bitlen ≤ s.config.bitcap

end Sys2Proof.Machine
end

