-- ==== Sys2Proof/Machine/Operands.lean ====
section
/-! DEFINITION. The operand and result forms of the commands (30_encoding.md R60 to R62): all
unsigned, used as they stand. -/

namespace Sys2Proof.Machine

/-- `D` as an index or register number, compared as a 32-bit unsigned number with no truncation
(30_encoding.md R62, 60_exceptions.md R183): whether it is below a limit. -/
def indexBelow (d : BitVec 32) (limit : Nat) : Bool := d.toNat < limit

/-- `D` as an index. -/
def indexOf (d : BitVec 32) : Nat := d.toNat

/-- `D` as a weight, inside BUILD: `zext_40(D)` (30_encoding.md R62). -/
def zext40 (w : Weight) : SumWeight := w.setWidth 40

/-- A count, length or index as the 32-bit result `D` (30_encoding.md R61). -/
def resultD (n : Nat) : BitVec 32 := BitVec.ofNat 32 n

/-- A code length as the 8-bit result `A` (30_encoding.md R61, 40_host_access.md R86). -/
def resultA (n : Nat) : BitVec 8 := BitVec.ofNat 8 n

/-- One bit as the 8-bit result `A`: `{0b0000000, v}` (40_host_access.md R92). -/
def bitResult (v : Bool) : BitVec 8 := 0#7 ++ BitVec.ofBool v

/-- A node as the 32-bit result `D`: `{0b0000000, L, 0b0000000, R}` (40_host_access.md R85). -/
def nodeResult (e : NodeEntry) : BitVec 32 := 0#7 ++ e.left ++ (0#7 ++ e.right)

end Sys2Proof.Machine
end

