-- ==== Sys2Proof/Machine/Flags.lean ====
section
/-! DEFINITION. The one-bit state elements (10_state.md R25) and the read-only status registers
(R26). There are no condition codes. -/

namespace Sys2Proof.Machine

/-- `FREQ[s].present` (10_state.md R10). -/
def State.present (s : State) (x : Symbol) : Bool := (Table.read s.freq x).isSome

/-- `FREQ[s].weight`; an absent symbol's weight is 0 (10_state.md R10, R29, log 12). -/
def State.weight (s : State) (x : Symbol) : Weight := (Table.read s.freq x).getD 0

/-- FCOUNT: the number of entries with `present = 1`; not storage (10_state.md R10). -/
def State.fcount (s : State) : Nat := s.freq.length

/-- `CODE[s].valid` (10_state.md R17). -/
def State.codeValid (s : State) (x : Symbol) : Bool := (Table.read s.code x).isSome

/-- NINT = NSYM − 1: the number of internal nodes; not storage (10_state.md R12). -/
def State.nint (s : State) : Nat := s.nsym.toNat - 1

/-- `SR[n]`, the status registers by number; `none` where there is no such register
(10_state.md R26). -/
def State.statusRegister (s : State) (n : Nat) : Option (BitVec 32) :=
  match n with
  | 0 => some (resultD s.tvalid.toNat)
  | 1 => some (s.nsym.setWidth 32)
  | 2 => some (s.root.setWidth 32)
  | 3 => some (resultD s.fcount)
  | 4 => some (resultD s.bytelen)
  | 5 => some (resultD s.bitlen)
  | 6 => some (resultD s.config.bytecap)
  | 7 => some (resultD s.config.bitcap)
  | _ => none

end Sys2Proof.Machine
end

