-- ==== Sys2Proof/Machine/BitPacking.lean ====
section
/-! DEFINITION. Bit packing, most significant bit first: the commands UNPACK and PACK
(45_bitpacking.md R160, R161; 20_memory.md R42). -/

namespace Sys2Proof.Machine

/-- The eight bits of a byte, earliest first: bit `j` is `B[7 − j]` (20_memory.md R42). -/
def byteBits (b : Byte) : BitSeq :=
  [b.getLsbD 7, b.getLsbD 6, b.getLsbD 5, b.getLsbD 4, b.getLsbD 3, b.getLsbD 2, b.getLsbD 1,
    b.getLsbD 0]

/-- The byte `{b0, b1, ..., b7}` of eight bits, earliest first (20_memory.md R42). -/
def bitsByte (b0 b1 b2 b3 b4 b5 b6 b7 : Bool) : Byte :=
  BitVec.ofBool b0 ++ BitVec.ofBool b1 ++ BitVec.ofBool b2 ++ BitVec.ofBool b3 ++
    BitVec.ofBool b4 ++ BitVec.ofBool b5 ++ BitVec.ofBool b6 ++ BitVec.ofBool b7

/-- `bytesToBits`: byte `m` gives bits `8m .. 8m+7` (45_bitpacking.md R160). -/
def bytesToBits (bytes : List Byte) : BitSeq := bytes.flatMap byteBits

/-- `bitsToBytes` on whole groups of eight bits; fewer than eight bits left over form no byte, and
PACK refuses them (45_bitpacking.md R161). -/
def bitsToBytes : BitSeq → List Byte
  | b0 :: b1 :: b2 :: b3 :: b4 :: b5 :: b6 :: b7 :: bits =>
    bitsByte b0 b1 b2 b3 b4 b5 b6 b7 :: bitsToBytes bits
  | _ => []

/-- `UNPACK` (45_bitpacking.md R160). -/
def execUnpack (s : State) : Host.Outcome State Fault Refusal :=
  respond 0 (resultD (8 * s.bytelen)) (s.putBits (bytesToBits s.byteBuf))

/-- `PACK` (45_bitpacking.md R161). -/
def execPack (s : State) : Host.Outcome State Fault Refusal :=
  if s.bitlen % 8 ≠ 0 then raise .unalignedBitLength (resultA (s.bitlen % 8)) (resultD s.bitlen) s
  else respond 0 (resultD (s.bitlen / 8)) (s.putBytes (bitsToBytes s.bitBuf))

end Sys2Proof.Machine
end

