-- ==== Sys2Proof/Machine/TreeBuilder.lean ====
section
/-! DEFINITION. The tree builder: greedy priority-queue merging (41_treebuilder.md R102 to R106). -/

namespace Sys2Proof.Machine

/-- A priority-queue entry `(w, ref)` (41_treebuilder.md R102). -/
structure QueueEntry where
  /-- `w`, a 40-bit unsigned weight. -/
  w : SumWeight
  /-- `ref`, a node reference. -/
  ref : NodeRef
  deriving DecidableEq, Repr

/-- The order of removal: by weight, then by reference, both unsigned (41_treebuilder.md R103). -/
def QueueEntry.before (e f : QueueEntry) : Bool := e.w < f.w || (e.w == f.w && e.ref < f.ref)

/-- Put an entry into a queue held in the order of removal, so that `popmin` takes the head
(41_treebuilder.md R103, R114; log 11). -/
def enqueue (e : QueueEntry) : List QueueEntry → List QueueEntry
  | [] => [e]
  | f :: q => if e.before f then e :: f :: q else f :: enqueue e q

/-- The initial queue: one leaf entry for each present symbol (41_treebuilder.md R102). -/
def initialQueue (freq : Table Weight) : List QueueEntry :=
  (freq.map (fun e => QueueEntry.mk (zext40 e.2) (leafref e.1))).foldr enqueue []

/-- The merge loop (41_treebuilder.md R100 lines 5 to 9, R104): while more than one entry is left,
the entry removed first becomes the left child, the entry removed second the right child, and the new
node, numbered by the merges done so far, goes back with the sum of the weights. The first argument
counts the merges left to do, of which there are `n − 1`. -/
def mergeLoop : Nat → List QueueEntry → List NodeEntry → List QueueEntry × List NodeEntry
  | m + 1, e₁ :: e₂ :: q, nodes =>
    mergeLoop m (enqueue ⟨e₁.w + e₂.w, intref nodes.length⟩ q) (nodes ++ [⟨e₁.ref, e₂.ref⟩])
  | _, q, nodes => (q, nodes)

/-- The arena `N'` and the root `r` built from a table (41_treebuilder.md R100 lines 3 to 10); no
root where the table is empty (R101). -/
def buildTree (freq : Table Weight) : Option (List NodeEntry × NodeRef) :=
  match mergeLoop (freq.length - 1) (initialQueue freq) [] with
  | ([], _) => none
  | (e :: _, nodes) => some (nodes, e.ref)

end Sys2Proof.Machine
end

