-- ==== Sys2Proof/Machine/CodeBook.lean ====
section
/-! DEFINITION. The derivation of the codebook from a tree, and the command BUILD, which commits both
(42_codebook.md R120 to R122, 41_treebuilder.md R100, R107). -/

namespace Sys2Proof.Machine

/-- `walk(ref, p)` (42_codebook.md R120), writing into the codebook `c`: left subtree first, `p` the
bits accumulated from the root. The first argument bounds the depth; the arena's size and one more is
enough, since a child that is internal has a smaller index than its parent (41_treebuilder.md R106,
log 15). -/
def walkCodes (nodes : List NodeEntry) : Nat → NodeRef → BitSeq → Table BitSeq → Table BitSeq
  | 0, _, _, c => c
  | d + 1, r, p, c =>
    if isLeaf r then Table.write c (sym r) p
    else walkCodes nodes d (child nodes r true) (p ++ [true])
      (walkCodes nodes d (child nodes r false) (p ++ [false]) c)

/-- `derive(N', r)` (42_codebook.md R120); a root that is a leaf gets the one-bit code `0` (R121). -/
def deriveCodes (nodes : List NodeEntry) (r : NodeRef) : Table BitSeq :=
  if isLeaf r then Table.write [] (sym r) [false]
  else walkCodes nodes (nodes.length + 1) r [] []

/-- The commit: NODE, ROOT, NSYM, CODE and TVALID are written together (41_treebuilder.md R107). -/
def State.commitTree (s : State) (nodes : List NodeEntry) (r : NodeRef) : State :=
  { s with node := nodes, root := r, nsym := BitVec.ofNat 9 s.fcount,
           code := deriveCodes nodes r, tvalid := true }

/-- `BUILD` (41_treebuilder.md R100). -/
def execBuild (s : State) : Host.Outcome State Fault Refusal :=
  match buildTree s.freq with
  | none => raise .emptyFrequencyTable 0 0 s
  | some (nodes, r) => respond 0 (resultD s.fcount) (s.commitTree nodes r)

end Sys2Proof.Machine
end

