-- ==== Sys2Proof/Machine/Decoder.lean ====
section
/-! DEFINITION. The decoder: the commands DECODE and DECODES (44_decoder.md R140 to R154), with the
loop guard of 90_conflicts.md C1. -/

namespace Sys2Proof.Machine

/-- The decode mode `m` (44_decoder.md R140, 30_encoding.md R62). -/
inductive DecodeMode where
  /-- `m = 0`: an unfinished symbol is completed with virtual 0 bits (R146). -/
  | flush
  /-- `m = 1`: an unfinished symbol is an error (R147). -/
  | strict
  deriving DecidableEq, Repr

/-- The state of the decoder's machine (44_decoder.md R141). -/
structure Cursor where
  /-- `cur`, the node the cursor stands at. -/
  cur : NodeRef
  /-- `i`, the bit index. -/
  i : Nat
  /-- `start`, the index of the first bit of the code being read. -/
  start : Nat
  /-- `out`, the symbols emitted so far. -/
  out : List Symbol
  deriving DecidableEq, Repr

/-- How the loop of 44_decoder.md R140 ends. -/
inductive DecodeEnd where
  /-- The loop is left, with the output. -/
  | done (out : List Symbol)
  /-- Line 5: IncompleteCode, with `start`. -/
  | incomplete (start : Nat)
  /-- The loop has run longer than a walk of a tree can (R153): NODE holds no tree (log 9). -/
  | unbounded
  deriving DecidableEq, Repr

/-- The cursor at the start of a decode command (44_decoder.md R141). -/
def Cursor.initial (root : NodeRef) : Cursor := { cur := root, i := 0, start := 0, out := [] }

/-- The cursor after it has consumed a bit without an emission (44_decoder.md R140 lines 7, 9). -/
def Cursor.advance (c : Cursor) (r : NodeRef) : Cursor := { c with cur := r, i := c.i + 1 }

/-- The cursor after an emission among the real bits (44_decoder.md R140 lines 8, 9). -/
def Cursor.emit (c : Cursor) (root r : NodeRef) : Cursor :=
  { cur := root, i := c.i + 1, start := c.i + 1, out := c.out ++ [sym r] }

/-- Where the cursor stands after line 7 of 44_decoder.md R140: an internal node is left along the
bit, a leaf is not left (R144). -/
def descend (nodes : List NodeEntry) (r : NodeRef) (b : Bool) : NodeRef :=
  if isInt r then child nodes r b else r

/-- The loop of 44_decoder.md R140, line by line. `bits` is `BITBUF[i ..]`, so `i ≥ BITLEN` reads
`bits = []` and a virtual 0 bit is the default of `headD` (R143). The first argument bounds the
iterations. -/
def decodeLoop (nodes : List NodeEntry) (root : NodeRef) (m : DecodeMode) :
    Nat → BitSeq → Cursor → DecodeEnd
  | 0, _, _ => .unbounded
  | n + 1, bits, c =>
    if bits = [] ∧ c.cur = root then .done c.out
    else if bits = [] ∧ m = .strict then .incomplete c.start
    else
      let r := descend nodes c.cur (bits.headD false)
      if isLeaf r then
        if bits = [] then .done (c.out ++ [sym r])
        else decodeLoop nodes root m n bits.tail (c.emit root r)
      else decodeLoop nodes root m n bits.tail (c.advance r)

/-- The bound on the loop: at most `BITLEN + 254` bodies and one last test of the guard
(44_decoder.md R153). -/
def decodeBound (bits : BitSeq) : Nat := bits.length + 255

/-- What a decode command reads from ROOT, NODE and BITBUF (44_decoder.md R140 lines 2 to 9). -/
def decodeBits (nodes : List NodeEntry) (root : NodeRef) (m : DecodeMode) (bits : BitSeq) :
    DecodeEnd :=
  decodeLoop nodes root m (decodeBound bits) bits (Cursor.initial root)

/-- The decode command in mode `m` (44_decoder.md R140): NoTree, then IncompleteCode, then
CapacityExceeded. -/
def runDecode (m : DecodeMode) (s : State) : Host.Outcome State Fault Refusal :=
  if s.tvalid = false then raise .noTree 0 0 s
  else match decodeBits s.node s.root m s.bitBuf with
    | .unbounded => .fault .treeWalkUnbounded
    | .incomplete start => raise .incompleteCode 0 (resultD start) s
    | .done out =>
      if s.config.bytecap < out.length then raise .capacityExceeded 0 (resultD out.length) s
      else respond 0 (resultD out.length) (s.putBytes out)

/-- `DECODE`: flush mode (44_decoder.md R140, R146). -/
def execDecode (s : State) : Host.Outcome State Fault Refusal := runDecode .flush s

/-- `DECODES`: strict mode (44_decoder.md R140, R147). -/
def execDecodes (s : State) : Host.Outcome State Fault Refusal := runDecode .strict s

end Sys2Proof.Machine
end

