-- ==== Sys2Proof/Machine/Encoder.lean ====
section
/-! DEFINITION. The encoder: the command ENCODE (43_encoder.md R130 to R135). -/

namespace Sys2Proof.Machine

/-- The loop of ENCODE (43_encoder.md R130 lines 3 to 6) from index `j` on, with the bits `acc`
formed so far: all the bits, or the first symbol with no code and its index (R131). -/
def encodeLoop (code : Table BitSeq) : List Byte → Nat → BitSeq → Except (Symbol × Nat) BitSeq
  | [], _, acc => .ok acc
  | x :: xs, j, acc =>
    match Table.read code x with
    | none => .error (x, j)
    | some p => encodeLoop code xs (j + 1) (acc ++ p)

/-- `ENCODE` (43_encoder.md R130): NoTree, then UnknownSymbol, then CapacityExceeded. -/
def execEncode (s : State) : Host.Outcome State Fault Refusal :=
  if s.tvalid = false then raise .noTree 0 0 s
  else match encodeLoop s.code s.byteBuf 0 [] with
    | .error (x, j) => raise .unknownSymbol x (resultD j) s
    | .ok acc =>
      if s.config.bitcap < acc.length then raise .capacityExceeded 0 (resultD acc.length) s
      else respond 0 (resultD acc.length) (s.putBits acc)

end Sys2Proof.Machine
end

