-- ==== Sys2Proof/Machine/HostAccess.lean ====
section
/-! DEFINITION. The thirteen host access commands (40_host_access.md R80 to R92). -/

namespace Sys2Proof.Machine

/-- `NOP` (R80). -/
def execNop (s : State) : Host.Outcome State Fault Refusal := respond 0 0 s

/-- `RDSR n` (R81). -/
def execRdsr (n : BitVec 32) (s : State) : Host.Outcome State Fault Refusal :=
  match s.statusRegister (indexOf n) with
  | none => raise .indexOutOfRange 0 n s
  | some v => respond 0 v s

/-- `FCLR` (R82). -/
def execFclr (s : State) : Host.Outcome State Fault Refusal := respond 0 0 { s with freq := [] }

/-- `FREQ[s].present <- 1; FREQ[s].weight <- w` (R83). -/
def State.setWeight (s : State) (x : Symbol) (w : Weight) : State :=
  { s with freq := Table.write s.freq x w }

/-- `FSET s, w` (R83): the response carries the count after the write. -/
def execFset (x : Symbol) (w : Weight) (s : State) : Host.Outcome State Fault Refusal :=
  respond 0 (resultD (s.setWeight x w).fcount) (s.setWeight x w)

/-- `FGET s` (R84). -/
def execFget (x : Symbol) (s : State) : Host.Outcome State Fault Refusal :=
  if s.present x then respond 1 (s.weight x) s else respond 0 0 s

/-- `NGET k` (R85). -/
def execNget (k : BitVec 32) (s : State) : Host.Outcome State Fault Refusal :=
  if s.tvalid = false then raise .noTree 0 0 s
  else if indexBelow k s.nint then respond 0 (nodeResult (nodeAt s.node (indexOf k))) s
  else raise .indexOutOfRange 0 k s

/-- `CLEN s` (R86). -/
def execClen (x : Symbol) (s : State) : Host.Outcome State Fault Refusal :=
  if s.tvalid = false then raise .noTree 0 0 s
  else match Table.read s.code x with
    | some p => respond (resultA p.length) 0 s
    | none => respond 0 0 s

/-- `CLRBY` (R87). -/
def execClrby (s : State) : Host.Outcome State Fault Refusal := respond 0 0 (s.putBytes [])

/-- `PUSHBY b` (R88). -/
def execPushby (b : Byte) (s : State) : Host.Outcome State Fault Refusal :=
  if s.bytelen = s.config.bytecap then raise .capacityExceeded 0 (resultD (s.config.bytecap + 1)) s
  else respond 0 (resultD (s.pushByte b).bytelen) (s.pushByte b)

/-- `GETBY i` (R89). -/
def execGetby (i : BitVec 32) (s : State) : Host.Outcome State Fault Refusal :=
  match s.byteAt (indexOf i) with
  | none => raise .indexOutOfRange 0 i s
  | some b => respond b 0 s

/-- `CLRBI` (R90). -/
def execClrbi (s : State) : Host.Outcome State Fault Refusal := respond 0 0 (s.putBits [])

/-- `PUSHBI v` (R91). -/
def execPushbi (v : Bool) (s : State) : Host.Outcome State Fault Refusal :=
  if s.bitlen = s.config.bitcap then raise .capacityExceeded 0 (resultD (s.config.bitcap + 1)) s
  else respond 0 (resultD (s.pushBit v).bitlen) (s.pushBit v)

/-- `GETBI i` (R92). -/
def execGetbi (i : BitVec 32) (s : State) : Host.Outcome State Fault Refusal :=
  match s.bitAt (indexOf i) with
  | none => raise .indexOutOfRange 0 i s
  | some v => respond (bitResult v) 0 s

end Sys2Proof.Machine
end

