-- ==== Sys2Proof/Machine/Dispatch.lean ====
section
/-! DEFINITION. What each command does: one arm per constructor of `Instr` (30_encoding.md R63). -/

namespace Sys2Proof.Machine

def exec (i : Instr) (s : State) : Host.Outcome State Fault Refusal :=
  match i with
  -- status, frequency table, tree and codebook read-back (40_host_access.md)
  | .nop => Sys2Proof.Machine.execNop s
  | .rdsr n => Sys2Proof.Machine.execRdsr n s
  | .fclr => Sys2Proof.Machine.execFclr s
  | .fset x w => Sys2Proof.Machine.execFset x w s
  | .fget x => Sys2Proof.Machine.execFget x s
  -- tree builder and codebook (41_treebuilder.md, 42_codebook.md)
  | .build => Sys2Proof.Machine.execBuild s
  | .nget k => Sys2Proof.Machine.execNget k s
  | .clen x => Sys2Proof.Machine.execClen x s
  -- byte buffer and bit buffer (40_host_access.md)
  | .clrby => Sys2Proof.Machine.execClrby s
  | .pushby b => Sys2Proof.Machine.execPushby b s
  | .getby k => Sys2Proof.Machine.execGetby k s
  | .clrbi => Sys2Proof.Machine.execClrbi s
  | .pushbi v => Sys2Proof.Machine.execPushbi v s
  | .getbi k => Sys2Proof.Machine.execGetbi k s
  -- encoder, decoder, bit packing (43_encoder.md, 44_decoder.md, 45_bitpacking.md)
  | .encode => Sys2Proof.Machine.execEncode s
  | .decode => Sys2Proof.Machine.execDecode s
  | .decodes => Sys2Proof.Machine.execDecodes s
  | .unpack => Sys2Proof.Machine.execUnpack s
  | .pack => Sys2Proof.Machine.execPack s

end Sys2Proof.Machine
end

