-- ==== Sys2Proof/Machine/Handshake.lean ====
section
/-! DEFINITION. The command and response handshake and reset: what one rising edge of `clk` does
(10_state.md R24, R28; 30_encoding.md R69; 70_reset_and_hazards.md R190, R191). -/

namespace Sys2Proof.Machine

/-- The pins of a host that drives nothing (log 6). -/
def quietPins : Pins := { rst := false, cmdValid := false, cmdWord := 0, rspReady := false }

/-- The pins at the coming edge. -/
def State.pinsNow (s : State) : Pins := s.pins.headD quietPins

/-- The state with the coming edge's pins used up. -/
def State.pinsUsed (s : State) : State := { s with pins := s.pins.tail }

/-- `cmd_ready`: 1 exactly when PHASE = IDLE (10_state.md R28). -/
def State.cmdReady (s : State) : Bool := s.phase == .idle

/-- `rsp_valid`: 1 exactly when PHASE = RESP (10_state.md R28). -/
def State.rspValid (s : State) : Bool := s.phase == .resp

/-- `rsp_word`: RSPREG, "defined only while `rsp_valid = 1`" (10_state.md R28, log 4). -/
def State.rspWord (s : State) : Option RspWord := if s.rspValid then some s.rspreg else none

/-- Reset at an edge: the reset state of 10_state.md R29, whatever the phase; a command in progress
is abandoned (70_reset_and_hazards.md R190, R191). The parameter, the host's pins to come and the
model's counter are no state of the core and stay (log 8). -/
def State.resetEdge (s : State) : State :=
  { State.reset with config := s.config, pins := s.pins, accepted := s.accepted }

/-- Acceptance of a command word in IDLE (30_encoding.md R69); the length of BUSY is free (log 5). -/
def State.acceptCommand (s : State) (w : CmdWord) : State :=
  { s with phase := .busy w (Config.busyEdges s.accepted), accepted := s.accepted + 1 }

/-- A further edge spent in BUSY (10_state.md R24, 70_reset_and_hazards.md R200). -/
def State.stayBusy (s : State) (w : CmdWord) (edges : Nat) : State :=
  { s with phase := .busy w edges }

/-- One command, whole: its word is decoded and its rule runs to its end; a word that is no command
raises `IllegalCommand(OP, D)` (30_encoding.md R64, 60_exceptions.md R180). -/
def runCommand (w : CmdWord) (s : State) : Host.Outcome State Fault Refusal :=
  match decode w with
  | .ok i => exec i s
  | .error _ => raise .illegalCommand (fieldsOf w).op (fieldsOf w).d s

/-- One rising edge of `clk` with the given pins (10_state.md R24, R28). -/
def clockEdge (p : Pins) (s : State) : Host.Outcome State Fault Refusal :=
  if p.rst then .next s.resetEdge
  else match s.phase with
    | .idle => if p.cmdValid then .next (s.acceptCommand p.cmdWord) else .next s
    | .busy w 0 => runCommand w s
    | .busy w (edges + 1) => .next (s.stayBusy w edges)
    | .resp => if p.rspReady then .next s.responseTaken else .next s

/-- `w` placed as the command in progress, at the last edge of its BUSY phase, with no reset asserted
at that edge (log 7). -/
def State.presentCommand (s : State) (w : CmdWord) : State :=
  { s with phase := .busy w 0, pins := quietPins :: s.pins }

end Sys2Proof.Machine
end

