-- ==== Sys2Proof/Machine/Step.lean ====
section
/-! DEFINITION. The step of the machine: one rising edge of `clk` with the pins the host drives at it
(10_state.md R28). -/

namespace Sys2Proof.Machine

/-- One step: the coming edge's pins are used up and the edge acts on the state. -/
def step (s : State) : Host.Outcome State Fault Refusal := clockEdge s.pinsNow s.pinsUsed

/-- `s` with the table word `w` (its bits from `nbits` up zero) as the command the next step runs
(log 7). -/
def State.withFetchWord (s : State) (nbits w : Nat) : State := s.presentCommand (tableWord nbits w)

end Sys2Proof.Machine
end

