-- ==== Sys2Proof/Safety.lean ====
section
/-! DEFINITION. The terms in which claims about the core are made: the tree as a value and the
invariants of the state (10_state.md R16, R18), which command may write what and raise what (R21,
60_exceptions.md R171), the builder's rules over a set of queue entries (41_treebuilder.md R100 to
R105), and the greedy parse of a bit sequence (44_decoder.md R149). -/

namespace Sys2Proof.Machine

/-! ### What a host can read of a response -/

/-- `ST` of the response word in RSPREG (30_encoding.md R61). -/
def State.status (s : State) : BitVec 8 := (fieldsOf s.rspreg).op

/-- FCOUNT, counted over all 256 symbols: "the number of entries with `present = 1`"
(10_state.md R10). -/
def State.presentCount (s : State) : Nat :=
  (List.range 256).countP (fun k => s.present (BitVec.ofNat 8 k))

/-! ### Runs -/

/-- `k` clock edges from a state, stopping at the first fault or refusal. -/
def clockEdges : Nat → State → Host.Outcome State Fault Refusal
  | 0, s => .next s
  | k + 1, s =>
    match step s with
    | .next t => clockEdges k t
    | .fault f => .fault f
    | .refused r => .refused r

/-- What the host observes in `k` clock edges: the response words it takes, in order
(70_reset_and_hazards.md R199, 30_encoding.md R69). -/
def observed : Nat → State → List RspWord
  | 0, _ => []
  | k + 1, s =>
    let taken := if s.pinsNow.rst = false ∧ s.pinsNow.rspReady = true then s.rspWord.toList else []
    match step s with
    | .next t => taken ++ observed k t
    | .fault _ => taken
    | .refused _ => taken

/-- A host that presents one command word and then takes responses for `n` clock edges. -/
def oneCommand (w : CmdWord) (n : Nat) : List Pins :=
  { quietPins with cmdValid := true, cmdWord := w } ::
    List.replicate n { quietPins with rspReady := true }

/-! ### The tree as a value (10_state.md R16) -/

/-- Every reference that occurs in the tree: the root's, then those of all children. -/
def treeRefs (nodes : List NodeEntry) (root : NodeRef) : List NodeRef :=
  root :: nodes.flatMap (fun e => [e.left, e.right])

/-- The node reached from `r` along a bit sequence, left on 0 and right on 1; `none` where the path
goes on past a leaf. -/
def follow (nodes : List NodeEntry) : NodeRef → BitSeq → Option NodeRef
  | r, [] => some r
  | r, b :: p => if isInt r then follow nodes (child nodes r b) p else none

/-- What holds of NSYM, ROOT, NODE and CODE whenever TVALID = 1 (10_state.md R12, R13, R16, R18). -/
structure TreeInv (s : State) : Prop where
  /-- NSYM counts 1 to 256 leaves (R12). -/
  nsym_range : 1 ≤ s.nsym.toNat ∧ s.nsym.toNat ≤ 256
  /-- The arena holds NINT = NSYM − 1 entries (R12, R15, R16 item 3). -/
  node_length : s.node.length = s.nint
  /-- ROOT is the one leaf, or the internal node created last (R13). -/
  root_ref : s.root = if s.nsym.toNat = 1 then leafref (sym s.root) else intref (s.nsym.toNat - 2)
  /-- A child that is internal has a smaller index than its parent (R16 item 1). -/
  children_lower : ∀ k < s.node.length, ∀ b : Bool,
    isInt (child s.node (intref k) b) = true → idx (child s.node (intref k) b) < k
  /-- No node is the child of two nodes (R16 item 2). -/
  refs_once : (treeRefs s.node s.root).Nodup
  /-- Every internal node is the root or a child (R16 item 2). -/
  refs_all : ∀ k < s.node.length, intref k ∈ treeRefs s.node s.root
  /-- "Codebook size equals the number of distinct input symbols" (R18 item 1). -/
  code_count : s.code.length = s.nsym.toNat
  /-- A symbol with a code is a leaf of the tree (R18 item 1). -/
  code_leaf : ∀ e ∈ s.code, leafref e.1 ∈ treeRefs s.node s.root
  /-- A leaf of the tree has a code (R18 item 1). -/
  leaf_code : ∀ r ∈ treeRefs s.node s.root, isLeaf r = true → s.codeValid (sym r) = true
  /-- A code spells the path of its leaf; the code of a lone leaf is `0` (R18 item 4). -/
  code_path : ∀ e ∈ s.code, if s.nsym.toNat = 1 then e.2 = [false]
    else follow s.node s.root e.2 = some (leafref e.1)
  /-- A code has 1 to 255 bits (R17, R18 item 3). -/
  code_length : ∀ e ∈ s.code, 1 ≤ e.2.length ∧ e.2.length ≤ 255

/-- The invariant of the core: what holds of every state a run reaches. -/
structure CoreInv (s : State) : Prop where
  /-- `1 ≤ BYTECAP ≤ 2^20` (00_scope.md R5). -/
  config_legal : s.config.legal
  /-- The memories are in canonical form and within capacity (10_state.md R10, R15, R17, R19, R20). -/
  memory_wf : Memory.wf s
  /-- With no tree NSYM and ROOT read 0 (10_state.md R12, R13). -/
  no_tree : s.tvalid = false → s.nsym = 0 ∧ s.root = 0
  /-- With a tree the invariants of 10_state.md R16 and R18 hold. -/
  tree : s.tvalid = true → TreeInv s
  /-- A response carries one of the status codes 0x00 to 0x08 (60_exceptions.md R170). -/
  response : s.phase = .resp → s.status.toNat ≤ 8

/-! ### Which command writes what, and raises what -/

/-- The commands that write FREQ (10_state.md R21). -/
def writesFreq : Instr → Bool
  | .fclr | .fset _ _ => true
  | .nop | .rdsr _ | .fget _ | .build | .nget _ | .clen _ | .clrby | .pushby _
  | .getby _ | .clrbi | .pushbi _ | .getbi _ | .encode | .decode | .decodes | .unpack
  | .pack => false

/-- The commands that write TVALID, NSYM, ROOT, NODE and CODE (10_state.md R21). -/
def writesTree : Instr → Bool
  | .build => true
  | .nop | .rdsr _ | .fclr | .fset _ _ | .fget _ | .nget _ | .clen _ | .clrby
  | .pushby _ | .getby _ | .clrbi | .pushbi _ | .getbi _ | .encode | .decode | .decodes
  | .unpack | .pack => false

/-- The commands that write BYTEBUF and BYTELEN (10_state.md R21). -/
def writesBytes : Instr → Bool
  | .clrby | .pushby _ | .decode | .decodes | .pack => true
  | .nop | .rdsr _ | .fclr | .fset _ _ | .fget _ | .build | .nget _ | .clen _
  | .getby _ | .clrbi | .pushbi _ | .getbi _ | .encode | .unpack => false

/-- The commands that write BITBUF and BITLEN (10_state.md R21). -/
def writesBits : Instr → Bool
  | .clrbi | .pushbi _ | .encode | .unpack => true
  | .nop | .rdsr _ | .fclr | .fset _ _ | .fget _ | .build | .nget _ | .clen _ | .clrby
  | .pushby _ | .getby _ | .getbi _ | .decode | .decodes | .pack => false

/-- The commands that need a tree (60_exceptions.md R181). -/
def needsTree : Instr → Bool
  | .nget _ | .clen _ | .encode | .decode | .decodes => true
  | .nop | .rdsr _ | .fclr | .fset _ _ | .fget _ | .build | .clrby | .pushby _
  | .getby _ | .clrbi | .pushbi _ | .getbi _ | .unpack | .pack => false

/-- The commands that only read (20_memory.md R45). -/
def onlyReads : Instr → Bool
  | .rdsr _ | .fget _ | .nget _ | .clen _ | .getby _ | .getbi _ => true
  | .nop | .fclr | .fset _ _ | .build | .clrby | .pushby _ | .clrbi | .pushbi _
  | .encode | .decode | .decodes | .unpack | .pack => false

/-- The status codes of the errors each command can raise (60_exceptions.md R170, R171). -/
def mayRaise : Instr → List (BitVec 8)
  | .nop | .fclr | .fset _ _ | .fget _ | .clrby | .clrbi | .unpack => []
  | .rdsr _ => [0x07]
  | .build => [0x01]
  | .nget _ => [0x05, 0x07]
  | .clen _ => [0x05]
  | .pushby _ | .pushbi _ => [0x06]
  | .getby _ | .getbi _ => [0x07]
  | .encode => [0x05, 0x02, 0x06]
  | .decode => [0x05, 0x06]
  | .decodes => [0x05, 0x04, 0x06]
  | .pack => [0x03]

/-! ### The tree builder over a set of entries (41_treebuilder.md R102 to R105) -/

/-- The initial queue: one entry for each present symbol (41_treebuilder.md R102). -/
def initialEntries (s : State) : Multiset QueueEntry :=
  (((List.range 256).map (BitVec.ofNat 8)).filter s.present).map
    (fun x => QueueEntry.mk (zext40 (s.weight x)) (leafref x))

/-- `e` is the least entry of a queue (41_treebuilder.md R103). -/
def LeastEntry (e : QueueEntry) (q : Multiset QueueEntry) : Prop :=
  e ∈ q ∧ ∀ f ∈ q, f ≠ e → e.w < f.w ∨ e.w = f.w ∧ e.ref < f.ref

/-- One pass of the loop of 41_treebuilder.md R100, lines 6 to 9: the least entry is removed, then
the least of what is left; they become the left and the right child of a new node, which goes back
with the sum of their weights. -/
inductive MergeStep : Multiset QueueEntry × List NodeEntry → Multiset QueueEntry × List NodeEntry → Prop
  | merge (e₁ e₂ : QueueEntry) (q : Multiset QueueEntry) (nodes : List NodeEntry) :
    LeastEntry e₁ (e₁ ::ₘ e₂ ::ₘ q) → LeastEntry e₂ (e₂ ::ₘ q) →
    MergeStep (e₁ ::ₘ e₂ ::ₘ q, nodes)
      (⟨e₁.w + e₂.w, intref nodes.length⟩ ::ₘ q, nodes ++ [⟨e₁.ref, e₂.ref⟩])

/-! ### Codes -/

/-- `Σ FREQ[s].weight × CODE[s].len` over the present symbols, for code lengths `len`
(41_treebuilder.md R110). -/
def cost (s : State) (len : Symbol → Nat) : Nat :=
  ((((List.range 256).map (BitVec.ofNat 8)).filter s.present).map
    (fun x => (s.weight x).toNat * len x)).sum

/-- `CODE[s].len`, 0 where there is no code (10_state.md R17, 40_host_access.md R86). -/
def State.codeLength (s : State) (x : Symbol) : Nat := ((Table.read s.code x).getD []).length

/-- An assignment of non-empty codes to the present symbols, none of them a prefix of another's
(41_treebuilder.md R110, 10_state.md R18). -/
def IsCodeFor (s : State) (c : Symbol → BitSeq) : Prop :=
  (∀ x, s.present x = true → c x ≠ []) ∧
    ∀ x y, s.present x = true → s.present y = true → x ≠ y → ¬ c x <+: c y

/-- The codes of a sequence of symbols, each of which has one (43_encoder.md R130). -/
def CodesOf (s : State) (symbols : List Symbol) (codes : List BitSeq) : Prop :=
  symbols.map (Table.read s.code) = codes.map some

/-- `B` splits into the codes of `symbols` and a tail that is a proper prefix of some code
(44_decoder.md R149). -/
def Parses (s : State) (bits : BitSeq) (symbols : List Symbol) (tail : BitSeq) : Prop :=
  (∃ codes, CodesOf s symbols codes ∧ bits = codes.flatten ++ tail) ∧
    ∃ x p, Table.read s.code x = some p ∧ tail <+: p ∧ tail ≠ p

end Sys2Proof.Machine
end

