-- ==== Sys2Proof/Certificates/Slice0/Obligations.lean ====
section
/-! DEFINITION. The statements for the provers. Each docstring names the rule of spec/ it formalises.
Codes of responses are written as numbers, as 60_exceptions.md R170 gives them. -/

open Sys2Proof Sys2Proof.Machine

/-! ### Encoding (30_encoding.md) -/

/-- R60, R63: encoding a command and decoding the word gives the command back, whatever its operands. -/
def Obligations.DecodeOfEncodeIsTheCommand : Prop :=
  ∀ i : Instr, Sys2Proof.decode (Sys2Proof.encode i) = .ok i

/-- R63: "no word matches two rows"; a word is the command of a row exactly when
`w AND mask = match`; and its operands stand in the fields the row names, so that the command
determines the word. -/
def Obligations.DecodeFollowsTheOpcodeTable : Prop :=
  (∀ r ∈ opcodeTable, ∀ r' ∈ opcodeTable, ∀ w, r.covers w = true → r'.covers w = true → r = r') ∧
  (∀ r ∈ opcodeTable, ∀ w,
    r.covers w = true ↔ ∃ i, Sys2Proof.decode w = .ok i ∧ i.mnemonic = r.mnemonic) ∧
  ∀ w i, Sys2Proof.decode w = .ok i → Sys2Proof.encode i = w

/-- R64: the decoder refuses a word exactly when its fields break one of R64's conditions: an
unassigned OP, a non-zero A or D without such an operand, PUSHBI or OP 0x41 with A ≥ 2. -/
def Obligations.DecodeRefusesExactlyTheIllegalWords : Prop :=
  ∀ w, (∃ e, Sys2Proof.decode w = .error e) ↔ (fieldsOf w).wellFormed = false

/-- R68: the command words of the spec's table of encodings decode to the lines beside them. -/
def Obligations.SpecExampleWordsDecode : Prop :=
  Sys2Proof.decode 0x000000000000 = .ok .nop ∧
  Sys2Proof.decode 0x010000000005 = .ok (.rdsr 5) ∧
  Sys2Proof.decode 0x116100000002 = .ok (.fset 0x61 2) ∧
  Sys2Proof.decode 0x11FFFFFFFFFF = .ok (.fset 0xFF 0xFFFFFFFF) ∧
  Sys2Proof.decode 0x126100000000 = .ok (.fget 0x61) ∧
  Sys2Proof.decode 0x200000000000 = .ok .build ∧
  Sys2Proof.decode 0x210000000001 = .ok (.nget 1) ∧
  Sys2Proof.decode 0x226200000000 = .ok (.clen 0x62) ∧
  Sys2Proof.decode 0x316100000000 = .ok (.pushby 0x61) ∧
  Sys2Proof.decode 0x320000000002 = .ok (.getby 2) ∧
  Sys2Proof.decode 0x390100000000 = .ok (.pushbi true) ∧
  Sys2Proof.decode 0x3A0000000003 = .ok (.getbi 3) ∧
  Sys2Proof.decode 0x400000000000 = .ok .encode ∧
  Sys2Proof.decode 0x410000000000 = .ok .decode ∧
  Sys2Proof.decode 0x410100000000 = .ok .decodes ∧
  Sys2Proof.decode 0x480000000000 = .ok .unpack ∧
  Sys2Proof.decode 0x490000000000 = .ok .pack

/-- R61: where the three fields of a response word stand. -/
def Obligations.ResponseWordLayout : Prop :=
  ∀ (st a : BitVec 8) (d : BitVec 32),
    (responseWord st a d).extractLsb' 40 8 = st ∧ (responseWord st a d).extractLsb' 32 8 = a ∧
      (responseWord st a d).extractLsb' 0 32 = d

/-! ### One clock edge: the handshake and reset (10_state.md R24, 30_encoding.md R69, R190, R191) -/

/-- R43, R69: at the last edge of a command's BUSY phase, with no reset, the step is the decoded
command's own meaning on the state with that edge's pins used up (the model's step, logs 5, 6, 10). -/
def Obligations.StepRunsTheDecodedCommand : Prop :=
  ∀ s w i, s.phase = .busy w 0 → s.pinsNow.rst = false → Sys2Proof.decode w = .ok i →
    step s = exec i s.pinsUsed

/-- R180: a word that matches no row is answered IllegalCommand(OP, D), and no state changes. That the
answer comes at the edge `.busy w 0` and uses up that edge's pins is the model's form (logs 5, 6, 10). -/
def Obligations.StepAnswersIllegalCommand : Prop :=
  ∀ s w, s.phase = .busy w 0 → s.pinsNow.rst = false →
    (∀ r ∈ opcodeTable, r.covers w = false) →
    step s = .next (s.pinsUsed.withResponse
      (responseWord 0x08 (w.extractLsb' 40 8) (w.extractLsb' 0 32)))

/-- R24, R69: in IDLE, with no reset, a presented command word is accepted as it stands and nothing
else changes; with `cmd_valid` = 0 nothing changes. The count of edges in BUSY is free and its counter the
model's own (log 5), as is the list of pins (log 6). That RSPREG keeps its value outside RESP, which R24
and U15 leave open, is the model's choice (log 4). -/
def Obligations.IdleAcceptsAPresentedCommand : Prop :=
  ∀ s, s.phase = .idle → s.pinsNow.rst = false →
    (s.pinsNow.cmdValid = true → ∃ edges,
      step s = .next { s.pinsUsed with
        phase := .busy s.pinsNow.cmdWord edges, accepted := s.accepted + 1 }) ∧
    (s.pinsNow.cmdValid = false → step s = .next s.pinsUsed)

/-- R24: "During BUSY and RESP no command is accepted": there the command pins have no effect. The
form of the pins is the model's (log 6). -/
def Obligations.NoCommandIsAcceptedOutsideIdle : Prop :=
  ∀ s, s.phase ≠ .idle → ∀ p : Pins, ∀ v w,
    clockEdge { p with cmdValid := v, cmdWord := w } s = clockEdge p s ∧ s.cmdReady = false

/-- R69: the response is taken at an edge with `rsp_ready` = 1, which makes the core IDLE; until then
`rsp_word` holds steady. Nothing else changes but the list of pins, the model's own (log 6). That RSPREG
keeps the response once it is taken, which R24 and U15 leave open, is the model's choice (log 4). -/
def Obligations.ResponseIsHeldUntilTaken : Prop :=
  ∀ s, s.phase = .resp → s.pinsNow.rst = false →
    s.rspWord = some s.rspreg ∧
    (s.pinsNow.rspReady = false → step s = .next s.pinsUsed) ∧
    (s.pinsNow.rspReady = true → step s = .next { s.pinsUsed with phase := .idle })

/-- R190, R191: at an edge with `rst` = 1 the state becomes the reset state of R29, whatever the phase:
no response is given for a command in progress, none of its writes is kept, and a presented word is
not accepted; and reset is the only thing that clears TVALID. That the parameter survives is DEDUCED
(log 8, from R26 and V-R1), and the pins are the model's own (log 6). -/
def Obligations.ResetEdgeGivesTheResetState : Prop :=
  (∀ s, s.pinsNow.rst = true → ∃ t, step s = .next t ∧
    (∀ x, t.present x = false ∧ t.weight x = 0) ∧ t.tvalid = false ∧ t.nsym = 0 ∧ t.root = 0 ∧
    t.bytelen = 0 ∧ t.bitlen = 0 ∧ t.phase = .idle ∧ t.rspValid = false ∧ t.cmdReady = true ∧
    t.config = s.config) ∧
  ∀ s t, step s = .next t → s.tvalid = true → t.tvalid = false → s.pinsNow.rst = true

/-- R29 and R5: the values the spec gives for the state after reset, with BYTECAP at its default; that
State.reset takes the default is the model's choice (log 1). -/
def Obligations.StateAfterReset : Prop :=
  (∀ x, State.reset.present x = false ∧ State.reset.weight x = 0) ∧ State.reset.tvalid = false ∧
    State.reset.nsym = 0 ∧ State.reset.root = 0 ∧ State.reset.bytelen = 0 ∧
    State.reset.bitlen = 0 ∧ State.reset.phase = .idle ∧ State.reset.config.bytecap = 4096

/-- R200: every accepted command reaches RESP after a finite number of clock edges with `rst` = 0,
and until then the core is BUSY. That it is BUSY for at least one edge, `1 < k`, is the model's choice
(log 5), and the list of coming pins is its own (log 6). -/
def Obligations.AcceptedCommandIsAnswered : Prop :=
  ∀ s, CoreInv s → s.phase = .idle → s.pinsNow.rst = false → s.pinsNow.cmdValid = true →
    (∀ p ∈ s.pins, p.rst = false) →
    ∃ k t, 1 < k ∧ clockEdges k s = .next t ∧ t.rspValid = true ∧
      ∀ j, 0 < j → j < k →
        ∃ u, clockEdges j s = .next u ∧ u.rspValid = false ∧ u.cmdReady = false

/-- R24, R43, R69: the clocked core does to a command what the one transition `runCommand` does: from
IDLE, a host that presents a word and then takes responses gets exactly that transition's response,
and the core is IDLE again in that transition's state. The number of edges `n` is free and the counter
the model's own (log 5), as is the list of pins (log 6). That RSPREG still holds the taken response in
the last state, which R24 and U15 leave open, is the model's choice (log 4). -/
def Obligations.ClockedCommandIsOneTransition : Prop :=
  ∀ s w, CoreInv s → s.phase = .idle → ∃ n u, runCommand w s = .next u ∧
    clockEdges (n + 1) { s with pins := oneCommand w n } =
      .next { u with phase := .idle, pins := [], accepted := s.accepted + 1 } ∧
    observed (n + 1) { s with pins := oneCommand w n } = [u.rspreg]

/-! ### Invariants and whole-machine rules -/

/-- R29: the state after reset meets the invariant. -/
def Obligations.InvariantHoldsAfterReset : Prop := CoreInv State.reset

/-- R12, R13, R16, R18 and the forms and capacities of the memories are kept by every step. -/
def Obligations.EveryStepKeepsTheInvariant : Prop :=
  ∀ s t, CoreInv s → step s = .next t → CoreInv t

/-- R184: every command, erroring or not, ends and answers. -/
def Obligations.EveryCommandAnswers : Prop :=
  ∀ i s, CoreInv s → ∃ t, exec i s = .next t ∧ t.rspValid = true

/-- R172: the state after an erroring command equals the state before it, but for the response. -/
def Obligations.ErroringCommandWritesNoState : Prop :=
  ∀ i s t, exec i s = .next t → t.status ≠ 0x00 → t = s.withResponse t.rspreg

/-- R171: which command can raise which error, and nothing else can; IllegalCommand is raised by no
command. -/
def Obligations.CommandsRaiseOnlyTheirErrors : Prop :=
  ∀ i s t, exec i s = .next t → t.status = 0x00 ∨ t.status ∈ mayRaise i

/-- R21: which command writes which state, and that every write happens with `ST = OK` only. The last
clause speaks of the model's own fields: the parameter (log 1), the counter (log 5), the pins (log 6). -/
def Obligations.CommandsWriteOnlyTheirState : Prop :=
  ∀ i s t, exec i s = .next t →
    (t.freq ≠ s.freq → writesFreq i = true ∧ t.status = 0x00) ∧
    (¬ (t.tvalid = s.tvalid ∧ t.nsym = s.nsym ∧ t.root = s.root ∧ t.node = s.node ∧
        t.code = s.code) → writesTree i = true ∧ t.status = 0x00) ∧
    (t.byteBuf ≠ s.byteBuf → writesBytes i = true ∧ t.status = 0x00) ∧
    (t.bitBuf ≠ s.bitBuf → writesBits i = true ∧ t.status = 0x00) ∧
    t.config = s.config ∧ t.pins = s.pins ∧ t.accepted = s.accepted

/-- R181: NoTree is raised by NGET, CLEN, ENCODE, DECODE and DECODES while TVALID = 0, whatever else
holds, and by no other command. -/
def Obligations.TreeCommandsRaiseNoTree : Prop :=
  (∀ i s, needsTree i = true → s.tvalid = false →
    exec i s = .next (s.withResponse (responseWord 0x05 0 0))) ∧
  ∀ i s t, exec i s = .next t → t.status = 0x05 → needsTree i = true ∧ s.tvalid = false

/-- R45: the read commands change no state and may be repeated with the same result. -/
def Obligations.ReadsHaveNoSideEffect : Prop :=
  ∀ i s t, onlyReads i = true → exec i s = .next t →
    t = s.withResponse t.rspreg ∧ exec i t = .next t

/-- R11: TVALID goes to 1 only by a BUILD and to 0 only by reset, and no other step writes NSYM,
ROOT, NODE or CODE. That a BUILD writes at the edge `.busy w 0` is the model's form (logs 5, 10). -/
def Obligations.TreeChangesOnlyByBuildAndReset : Prop :=
  ∀ s t, step s = .next t → s.pinsNow.rst = false →
    ¬ (∃ w, s.phase = .busy w 0 ∧ Sys2Proof.decode w = .ok .build) →
    t.tvalid = s.tvalid ∧ t.nsym = s.nsym ∧ t.root = s.root ∧ t.node = s.node ∧ t.code = s.code

/-- R29: while TVALID = 0 nothing depends on NODE, CODE or the old RSPREG: no command's response and
no other state; after a successful BUILD nothing of them is left. -/
def Obligations.UnreadableStateIsNotObserved : Prop :=
  ∀ i s t nodes codes w, s.tvalid = false → exec i s = .next t →
    ∃ t', exec i { s with node := nodes, code := codes, rspreg := w } = .next t' ∧
      { t' with node := t.node, code := t.code } = t ∧
      (t.tvalid = true → t' = t) ∧ (t.tvalid = false → t'.node = nodes ∧ t'.code = codes)

/-- Log 1 and log 6: no step writes the parameter, and each step uses up one edge's pins. -/
def Obligations.StepKeepsTheParameter : Prop :=
  ∀ s t, step s = .next t → t.config = s.config ∧ t.pins = s.pins.tail

/-! ### Host access commands (40_host_access.md) -/

/-- R80: NOP responds OK(0, 0) and touches nothing. -/
def Obligations.NopAnswersZero : Prop :=
  ∀ s, exec .nop s = .next (s.withResponse (responseWord 0x00 0 0))

/-- R26, R81: the value RDSR returns for each status register, and IndexOutOfRange from 8 on. -/
def Obligations.RdsrReadsTheStatusRegisters : Prop :=
  ∀ s, Table.wf s.freq →
    let ok := fun v : BitVec 32 => Host.Outcome.next (σ := State) (φ := Fault) (ρ := Refusal)
      (s.withResponse (responseWord 0x00 0 v))
    exec (.rdsr 0) s = ok (if s.tvalid then 1 else 0) ∧
    exec (.rdsr 1) s = ok (BitVec.ofNat 32 s.nsym.toNat) ∧
    exec (.rdsr 2) s = ok (BitVec.ofNat 32 s.root.toNat) ∧
    exec (.rdsr 3) s = ok (BitVec.ofNat 32 s.presentCount) ∧
    exec (.rdsr 4) s = ok (BitVec.ofNat 32 s.byteBuf.length) ∧
    exec (.rdsr 5) s = ok (BitVec.ofNat 32 s.bitBuf.length) ∧
    exec (.rdsr 6) s = ok (BitVec.ofNat 32 s.config.bytecap) ∧
    exec (.rdsr 7) s = ok (BitVec.ofNat 32 (8 * s.config.bytecap)) ∧
    ∀ n : BitVec 32, 7 < n.toNat →
      exec (.rdsr n) s = .next (s.withResponse (responseWord 0x07 0 n))

/-- R82: FCLR makes every symbol absent with weight 0 and leaves everything else, TVALID included. -/
def Obligations.FclrEmptiesTheTable : Prop :=
  ∀ s, ∃ t, exec .fclr s = .next t ∧ (∀ x, t.present x = false ∧ t.weight x = 0) ∧
    t = { s with freq := t.freq }.withResponse (responseWord 0x00 0 0)

/-- R83: FSET makes the symbol present with the new weight, leaves every other symbol and all other
state, counts a symbol once, and answers the count after the write; two FSETs of different symbols
leave the same table in either order. -/
def Obligations.FsetSetsOneWeight : Prop :=
  (∀ s x w, Table.wf s.freq → ∃ t, exec (.fset x w) s = .next t ∧
    t.present x = true ∧ t.weight x = w ∧
    (∀ y, y ≠ x → t.present y = s.present y ∧ t.weight y = s.weight y) ∧
    t.presentCount = s.presentCount + (if s.present x then 0 else 1) ∧
    t = { s with freq := t.freq }.withResponse
      (responseWord 0x00 0 (BitVec.ofNat 32 t.presentCount))) ∧
  ∀ s x y v w, Table.wf s.freq → x ≠ y → ∃ t u t' u',
    exec (.fset x v) s = .next t ∧ exec (.fset y w) t = .next u ∧
    exec (.fset y w) s = .next t' ∧ exec (.fset x v) t' = .next u' ∧ u.freq = u'.freq

/-- R84: FGET answers (1, weight) for a present symbol and (0, 0) for an absent one. -/
def Obligations.FgetReadsOneEntry : Prop :=
  ∀ s x, exec (.fget x) s = .next (s.withResponse
    (if s.present x = true then responseWord 0x00 1 (s.weight x) else responseWord 0x00 0 0))

/-- R85: NGET answers D[24:16] = NODE[k].L and D[8:0] = NODE[k].R, the other bits zero, for
`k < NSYM − 1`, IndexOutOfRange(0, k) for any other `k`, and NoTree while there is no tree. -/
def Obligations.NgetReadsOneNode : Prop :=
  ∀ s k, CoreInv s →
    (s.tvalid = true → k.toNat < s.nsym.toNat - 1 → ∃ e d, s.node[k.toNat]? = some e ∧
      exec (.nget k) s = .next (s.withResponse (responseWord 0x00 0 d)) ∧
      d.extractLsb' 16 9 = e.left ∧ d.extractLsb' 0 9 = e.right ∧
      d.extractLsb' 25 7 = 0 ∧ d.extractLsb' 9 7 = 0) ∧
    (s.tvalid = true → s.nsym.toNat - 1 ≤ k.toNat →
      exec (.nget k) s = .next (s.withResponse (responseWord 0x07 0 k))) ∧
    (s.tvalid = false → exec (.nget k) s = .next (s.withResponse (responseWord 0x05 0 0)))

/-- R86: CLEN answers the length of a symbol's code, 1 to 255, 0 for a symbol with no code, and NoTree
while there is no tree. -/
def Obligations.ClenReadsACodeLength : Prop :=
  ∀ s x, CoreInv s →
    (s.tvalid = true → ∃ a : BitVec 8,
      exec (.clen x) s = .next (s.withResponse (responseWord 0x00 a 0)) ∧
      (∀ p, Table.read s.code x = some p → a.toNat = p.length ∧ 1 ≤ a.toNat) ∧
      (Table.read s.code x = none → a = 0)) ∧
    (s.tvalid = false → exec (.clen x) s = .next (s.withResponse (responseWord 0x05 0 0)))

/-- R87, R90: CLRBY and CLRBI empty their buffer, answer OK(0, 0), and leave everything else. -/
def Obligations.ClearingABufferEmptiesIt : Prop :=
  ∀ s, exec .clrby s = .next ({ s with byteBuf := [] }.withResponse (responseWord 0x00 0 0)) ∧
    exec .clrbi s = .next ({ s with bitBuf := [] }.withResponse (responseWord 0x00 0 0))

/-- R88: PUSHBY appends one byte and answers the new length; on a full buffer it raises
CapacityExceeded(0, BYTECAP + 1). -/
def Obligations.PushbyAppendsOneByte : Prop :=
  ∀ s b, (s.byteBuf.length ≠ s.config.bytecap →
      exec (.pushby b) s = .next ({ s with byteBuf := s.byteBuf ++ [b] }.withResponse
        (responseWord 0x00 0 (BitVec.ofNat 32 (s.byteBuf.length + 1))))) ∧
    (s.byteBuf.length = s.config.bytecap →
      exec (.pushby b) s = .next (s.withResponse
        (responseWord 0x06 0 (BitVec.ofNat 32 (s.config.bytecap + 1)))))

/-- R91: PUSHBI appends one bit and answers the new length; on a full buffer it raises
CapacityExceeded(0, BITCAP + 1). -/
def Obligations.PushbiAppendsOneBit : Prop :=
  ∀ s v, (s.bitBuf.length ≠ 8 * s.config.bytecap →
      exec (.pushbi v) s = .next ({ s with bitBuf := s.bitBuf ++ [v] }.withResponse
        (responseWord 0x00 0 (BitVec.ofNat 32 (s.bitBuf.length + 1))))) ∧
    (s.bitBuf.length = 8 * s.config.bytecap →
      exec (.pushbi v) s = .next (s.withResponse
        (responseWord 0x06 0 (BitVec.ofNat 32 (8 * s.config.bytecap + 1)))))

/-- R89: GETBY answers the byte at an index below BYTELEN and IndexOutOfRange(0, i) otherwise. -/
def Obligations.GetbyReadsOneByte : Prop :=
  ∀ s i, (∀ b, s.byteBuf[i.toNat]? = some b →
      exec (.getby i) s = .next (s.withResponse (responseWord 0x00 b 0))) ∧
    (s.byteBuf.length ≤ i.toNat →
      exec (.getby i) s = .next (s.withResponse (responseWord 0x07 0 i)))

/-- R92: GETBI answers the bit at an index below BITLEN and IndexOutOfRange(0, i) otherwise. -/
def Obligations.GetbiReadsOneBit : Prop :=
  ∀ s i, (∀ v, s.bitBuf[i.toNat]? = some v →
      exec (.getbi i) s = .next (s.withResponse (responseWord 0x00 (if v then 1 else 0) 0))) ∧
    (s.bitBuf.length ≤ i.toNat →
      exec (.getbi i) s = .next (s.withResponse (responseWord 0x07 0 i)))

/-! ### Tree builder and codebook (41_treebuilder.md, 42_codebook.md) -/

/-- R101: BUILD with no symbol present raises EmptyFrequencyTable(0, 0); the tree keeps its values. -/
def Obligations.BuildFailsOnAnEmptyTable : Prop :=
  ∀ s, (∀ x, s.present x = false) → exec .build s = .next (s.withResponse (responseWord 0x01 0 0))

/-- R100, R107: BUILD succeeds for every non-empty table, sets TVALID, sets NSYM to the number of
present symbols, answers that number, and writes nothing but NODE, ROOT, NSYM, CODE and TVALID. -/
def Obligations.BuildSucceedsOnANonemptyTable : Prop :=
  ∀ s, Table.wf s.freq → (∃ x, s.present x = true) → ∃ nodes r codes,
    exec .build s = .next ({ s with
      node := nodes, root := r, nsym := BitVec.ofNat 9 s.presentCount, code := codes,
      tvalid := true }.withResponse (responseWord 0x00 0 (BitVec.ofNat 32 s.presentCount)))

/-- R102 to R105: the arena and the root BUILD leaves are those of repeatedly removing the least two
entries of the set of entries, ordered by weight and then by reference, lesser on the left, until one
entry remains. -/
def Obligations.BuildMergesTheTwoLeastEntries : Prop :=
  ∀ s, Table.wf s.freq → (∃ x, s.present x = true) → ∃ t e,
    exec .build s = .next t ∧
    Relation.ReflTransGen MergeStep (initialEntries s, []) ({e}, t.node) ∧ t.root = e.ref

/-- R111: no addition of the builder overflows: at every point of every merge the queue's weights,
as numbers, sum to the sum of the table's weights, which is below 2^40. -/
def Obligations.QueueWeightsNeverOverflow : Prop :=
  ∀ s q nodes, Relation.ReflTransGen MergeStep (initialEntries s, []) (q, nodes) →
    (q.map (fun e => e.w.toNat)).sum = cost s (fun _ => 1) ∧ cost s (fun _ => 1) < 2 ^ 40

/-- R109: "`build(freqs)`'s leaf set exactly equals the symbol set of `freqs`." -/
def Obligations.BuildLeafSetIsTheSymbolSet : Prop :=
  ∀ s t, Table.wf s.freq → (∃ x, s.present x = true) → exec .build s = .next t →
    ∀ x, leafref x ∈ treeRefs t.node t.root ↔ s.present x = true

/-- R123: the number of symbols with a code is the number of present symbols, those symbols are the
present ones, and no code is a prefix of another. -/
def Obligations.BuildCodebookIsPrefixFree : Prop :=
  ∀ s t, Table.wf s.freq → (∃ x, s.present x = true) → exec .build s = .next t →
    t.code.length = s.presentCount ∧
    (∀ x, t.codeValid x = true ↔ s.present x = true) ∧
    ∀ x y p q, Table.read t.code x = some p → Table.read t.code y = some q → x ≠ y → ¬ p <+: q

/-- R124: for two or more leaves a code spells the path of its leaf, so its length is the leaf's
depth, 1 to n − 1; for one leaf the code has length 1. -/
def Obligations.BuildCodeLengthIsLeafDepth : Prop :=
  ∀ s t x, Table.wf s.freq → s.present x = true → exec .build s = .next t →
    (2 ≤ s.presentCount → ∃ p, Table.read t.code x = some p ∧
      (∀ q, follow t.node t.root q = some (leafref x) ↔ q = p) ∧
      1 ≤ p.length ∧ p.length ≤ s.presentCount - 1) ∧
    (s.presentCount = 1 → Table.read t.code x = some [false])

/-- R113, R121: a table with exactly one symbol gives a tree that is one leaf, with the one-bit code
`0`, and BUILD answers OK(0, 1). -/
def Obligations.BuildOfOneSymbol : Prop :=
  ∀ s x w, s.freq = [(x, w)] →
    exec .build s = .next ({ s with
      node := [], root := leafref x, nsym := 1, code := [(x, [false])], tvalid := true }.withResponse
        (responseWord 0x00 0 1))

/-- R110: the weighted code length of the built codebook is the least any assignment of non-empty
codes, none a prefix of another, has for the same table. -/
def Obligations.BuildIsOptimal : Prop :=
  ∀ s t, Table.wf s.freq → (∃ x, s.present x = true) → exec .build s = .next t →
    IsCodeFor s (fun x => (Table.read t.code x).getD []) ∧
    ∀ c, IsCodeFor s c → cost s t.codeLength ≤ cost s (fun x => (c x).length)

/-- R108: what BUILD writes is a function of the mapping held in FREQ alone. -/
def Obligations.BuildDependsOnTheTableAlone : Prop :=
  ∀ s s' t t', Table.wf s.freq → Table.wf s'.freq → (∃ x, s.present x = true) →
    (∀ x, s.present x = s'.present x ∧ s.weight x = s'.weight x) →
    exec .build s = .next t → exec .build s' = .next t' →
    t.tvalid = t'.tvalid ∧ t.nsym = t'.nsym ∧ t.root = t'.root ∧ t.node = t'.node ∧
      t.code = t'.code ∧ t.rspreg = t'.rspreg

/-! ### Encoder (43_encoder.md) -/

/-- R130, R132, R133: with a tree and a code for every byte, ENCODE replaces BITBUF by the
concatenation of the codes in input order and answers its length; a result longer than BITCAP raises
CapacityExceeded with that length. -/
def Obligations.EncodeConcatenatesTheCodes : Prop :=
  ∀ s codes, s.tvalid = true → CodesOf s s.byteBuf codes →
    (codes.flatten.length ≤ 8 * s.config.bytecap →
      exec .encode s = .next ({ s with bitBuf := codes.flatten }.withResponse
        (responseWord 0x00 0 (BitVec.ofNat 32 codes.flatten.length)))) ∧
    (8 * s.config.bytecap < codes.flatten.length →
      exec .encode s = .next (s.withResponse
        (responseWord 0x06 0 (BitVec.ofNat 32 codes.flatten.length))))

/-- R131: ENCODE reports the first byte with no code and its index, whatever the length of the codes
before it. -/
def Obligations.EncodeReportsTheFirstUnknownSymbol : Prop :=
  ∀ s before x after, s.tvalid = true → s.byteBuf = before ++ x :: after →
    (∀ y ∈ before, s.codeValid y = true) → s.codeValid x = false →
    exec .encode s = .next (s.withResponse
      (responseWord 0x02 x (BitVec.ofNat 32 before.length)))

/-! ### Decoder (44_decoder.md) -/

/-- R149: with at least two leaves, every bit sequence splits in exactly one way into codes and a tail
that is a proper prefix of a code. -/
def Obligations.EveryBitSequenceParsesOnce : Prop :=
  ∀ s bits, CoreInv s → s.tvalid = true → 2 ≤ s.nsym.toNat →
    ∃ symbols tail, Parses s bits symbols tail ∧
      ∀ symbols' tail', Parses s bits symbols' tail' → symbols' = symbols ∧ tail' = tail

/-- R149: the result of DECODE and DECODES read off the greedy parse of BITBUF: the parsed symbols
where no tail is left; with a tail, DECODES raises IncompleteCode at the tail's first bit and DECODE
adds the symbol whose code is the tail followed by 0 bits. Longer results than BYTECAP raise
CapacityExceeded (R152). -/
def Obligations.DecodeReturnsTheGreedyParse : Prop :=
  ∀ s symbols tail, CoreInv s → s.tvalid = true → 2 ≤ s.nsym.toNat →
    Parses s s.bitBuf symbols tail →
    let result := fun out : List Symbol => Host.Outcome.next (σ := State) (φ := Fault) (ρ := Refusal)
      (if out.length ≤ s.config.bytecap
        then { s with byteBuf := out }.withResponse
          (responseWord 0x00 0 (BitVec.ofNat 32 out.length))
        else s.withResponse (responseWord 0x06 0 (BitVec.ofNat 32 out.length)))
    (tail = [] → exec .decode s = result symbols ∧ exec .decodes s = result symbols) ∧
    (tail ≠ [] →
      exec .decodes s = .next (s.withResponse
        (responseWord 0x04 0 (BitVec.ofNat 32 (s.bitBuf.length - tail.length)))) ∧
      ∃ z n, Table.read s.code z = some (tail ++ List.replicate n false) ∧
        exec .decode s = result (symbols ++ [z]))

/-- R148: on a tree of one leaf every bit, 0 or 1, gives the symbol, in both modes. -/
def Obligations.DecodeOnASingleLeaf : Prop :=
  ∀ s x, s.tvalid = true → s.root = leafref x →
    let result := Host.Outcome.next (σ := State) (φ := Fault) (ρ := Refusal)
      (if s.bitBuf.length ≤ s.config.bytecap
        then { s with byteBuf := List.replicate s.bitBuf.length x }.withResponse
          (responseWord 0x00 0 (BitVec.ofNat 32 s.bitBuf.length))
        else s.withResponse (responseWord 0x06 0 (BitVec.ofNat 32 s.bitBuf.length)))
    exec .decode s = result ∧ exec .decodes s = result

/-- R146: once a tree exists, DECODE ends with OK for every content of BITBUF whose decoded length fits
BYTEBUF, writing BYTEBUF alone; there are at most BITLEN symbols, so `BITLEN ≤ BYTECAP` is enough; a
longer result is answered CapacityExceeded with its length (R152). -/
def Obligations.FlushDecodeNeverRejects : Prop :=
  ∀ s, CoreInv s → s.tvalid = true → ∃ out,
    out.length ≤ s.bitBuf.length ∧
    (out.length ≤ s.config.bytecap → exec .decode s = .next ({ s with byteBuf := out }.withResponse
      (responseWord 0x00 0 (BitVec.ofNat 32 out.length)))) ∧
    (s.config.bytecap < out.length → exec .decode s = .next (s.withResponse
      (responseWord 0x06 0 (BitVec.ofNat 32 out.length))))

/-- R150: after a successful ENCODE, DECODE and DECODES return exactly the bytes that were encoded,
whatever BYTEBUF has held in between. -/
def Obligations.DecodeInvertsEncode : Prop :=
  ∀ s t junk, CoreInv s → exec .encode s = .next t → t.status = 0x00 →
    let back := Host.Outcome.next (σ := State) (φ := Fault) (ρ := Refusal)
      ({ t with byteBuf := s.byteBuf }.withResponse
        (responseWord 0x00 0 (BitVec.ofNat 32 s.byteBuf.length)))
    exec .decode { t with byteBuf := junk } = back ∧ exec .decodes { t with byteBuf := junk } = back

/-- R134, R154: what ENCODE answers and writes depends on CODE and BYTEBUF alone, and what a decode
command answers and writes on ROOT, NODE and BITBUF alone (and both on TVALID and the capacity). -/
def Obligations.TransformsArePure : Prop :=
  (∀ s s' t, s.tvalid = s'.tvalid → s.config = s'.config → s.code = s'.code →
    s.byteBuf = s'.byteBuf → exec .encode s = .next t →
    ∃ t', exec .encode s' = .next t' ∧ t'.rspreg = t.rspreg ∧
      (t.status = 0x00 → t'.bitBuf = t.bitBuf)) ∧
  ∀ s s' t, ∀ i ∈ [Instr.decode, Instr.decodes], s.tvalid = s'.tvalid → s.config = s'.config →
    s.root = s'.root → s.node = s'.node → s.bitBuf = s'.bitBuf → exec i s = .next t →
    ∃ t', exec i s' = .next t' ∧ t'.rspreg = t.rspreg ∧ (t.status = 0x00 → t'.byteBuf = t.byteBuf)

/-- R194: the tree is a snapshot: a change of the table alone changes nothing that NGET, CLEN,
ENCODE, DECODE and DECODES answer or write. -/
def Obligations.TreeIsASnapshotOfTheTable : Prop :=
  ∀ s t freq, ∀ i, needsTree i = true → exec i s = .next t →
    exec i { s with freq := freq } = .next { t with freq := freq }

/-! ### Bit packing (45_bitpacking.md) -/

/-- R160, R42: UNPACK makes bit `8m + j` of BITBUF equal to bit `7 − j` of byte `m` and writes
nothing else. -/
def Obligations.UnpackIsMsbFirst : Prop :=
  ∀ s, ∃ bits, exec .unpack s = .next ({ s with bitBuf := bits }.withResponse
      (responseWord 0x00 0 (BitVec.ofNat 32 (8 * s.byteBuf.length)))) ∧
    bits.length = 8 * s.byteBuf.length ∧
    ∀ m b, s.byteBuf[m]? = some b → ∀ j < 8, bits[8 * m + j]? = some (b.getLsbD (7 - j))

/-- R161, R44, R42: PACK of a multiple of eight bits makes byte `m` of BYTEBUF
`{BITBUF[8m], ..., BITBUF[8m+7]}` and writes nothing else; otherwise it raises UnalignedBitLength. -/
def Obligations.PackIsMsbFirstAndAligned : Prop :=
  ∀ s, (s.bitBuf.length % 8 = 0 →
    ∃ bytes, exec .pack s = .next ({ s with byteBuf := bytes }.withResponse
        (responseWord 0x00 0 (BitVec.ofNat 32 (s.bitBuf.length / 8)))) ∧
      bytes.length = s.bitBuf.length / 8 ∧
      ∀ m b, bytes[m]? = some b → ∀ j < 8, s.bitBuf[8 * m + j]? = some (b.getLsbD (7 - j))) ∧
    (s.bitBuf.length % 8 ≠ 0 → exec .pack s = .next (s.withResponse
      (responseWord 0x03 (BitVec.ofNat 8 (s.bitBuf.length % 8)) (BitVec.ofNat 32 s.bitBuf.length))))

/-- R162: for every content of BYTEBUF, UNPACK and then PACK give it back. -/
def Obligations.PackInvertsUnpack : Prop :=
  ∀ s junk, ∃ t, exec .unpack s = .next t ∧ t.status = 0x00 ∧
    exec .pack { t with byteBuf := junk } = .next ({ t with byteBuf := s.byteBuf }.withResponse
      (responseWord 0x00 0 (BitVec.ofNat 32 s.byteBuf.length)))

/-- R163: when BITLEN is a multiple of 8, PACK and then UNPACK give BITBUF back. -/
def Obligations.UnpackInvertsPack : Prop :=
  ∀ s junk, s.bitBuf.length % 8 = 0 → ∃ t, exec .pack s = .next t ∧ t.status = 0x00 ∧
    exec .unpack { t with bitBuf := junk } = .next ({ t with bitBuf := s.bitBuf }.withResponse
      (responseWord 0x00 0 (BitVec.ofNat 32 s.bitBuf.length)))
end

