-- ==== Sys2Proof/Laws/Refs.lean ====
section
/-! SUPPORT. Node references (10_state.md R14): leaf and internal references are two disjoint kinds,
each determined by its symbol or index, and ordered leaves first. -/

namespace Sys2Proof.Machine

theorem leafref_toNat (s : Symbol) : (leafref s).toNat = s.toNat := by
  show (0#1 ++ s : BitVec (1 + 8)).toNat = s.toNat
  rw [BitVec.toNat_append]; simp

theorem intref_toNat (k : Nat) : (intref k).toNat = 256 + k % 256 := by
  have h : k % 256 < 2 ^ 8 := Nat.mod_lt _ (by decide)
  show (1#1 ++ BitVec.ofNat 8 k : BitVec (1 + 8)).toNat = _
  rw [BitVec.toNat_append, BitVec.toNat_ofNat, BitVec.toNat_ofNat, ← Nat.shiftLeft_add_eq_or_of_lt h]
  simp [Nat.shiftLeft_eq]

theorem isInt_iff_toNat (r : NodeRef) : isInt r = true ↔ 256 ≤ r.toNat := by
  have hr := r.isLt
  rw [isInt, BitVec.getLsbD, Nat.testBit_eq_decide_div_mod_eq, decide_eq_true_iff]
  omega

theorem isLeaf_iff_toNat (r : NodeRef) : isLeaf r = true ↔ r.toNat < 256 := by
  have := isInt_iff_toNat r
  cases h : isInt r <;> simp_all [isLeaf]

theorem sym_toNat (r : NodeRef) : (sym r).toNat = r.toNat % 256 := by
  simp [sym]

theorem idx_eq (r : NodeRef) : idx r = r.toNat % 256 := by
  simp [idx]

theorem idx_lt (r : NodeRef) : idx r < 256 := by
  rw [idx_eq]; exact Nat.mod_lt _ (by decide)

@[simp] theorem isInt_leafref (s : Symbol) : isInt (leafref s) = false := by
  have h : ¬ isInt (leafref s) = true := by
    have := s.isLt
    rw [isInt_iff_toNat, leafref_toNat]; omega
  simpa using h

@[simp] theorem isLeaf_leafref (s : Symbol) : isLeaf (leafref s) = true := by simp [isLeaf]

@[simp] theorem isInt_intref (k : Nat) : isInt (intref k) = true := by
  rw [isInt_iff_toNat, intref_toNat]; omega

@[simp] theorem isLeaf_intref (k : Nat) : isLeaf (intref k) = false := by simp [isLeaf]

@[simp] theorem sym_leafref (s : Symbol) : sym (leafref s) = s := by
  apply BitVec.eq_of_toNat_eq
  have := s.isLt
  rw [sym_toNat, leafref_toNat]; omega

@[simp] theorem idx_intref {k : Nat} (h : k < 256) : idx (intref k) = k := by
  rw [idx_eq, intref_toNat]; omega

/-- A leaf reference is the reference of its symbol. -/
theorem leafref_sym {r : NodeRef} (h : isLeaf r = true) : leafref (sym r) = r := by
  apply BitVec.eq_of_toNat_eq
  rw [isLeaf_iff_toNat] at h
  rw [leafref_toNat, sym_toNat]; omega

/-- An internal reference is the reference of its index. -/
theorem intref_idx {r : NodeRef} (h : isInt r = true) : intref (idx r) = r := by
  apply BitVec.eq_of_toNat_eq
  rw [isInt_iff_toNat] at h
  have := r.isLt
  rw [intref_toNat, idx_eq]; omega

theorem leafref_inj {s t : Symbol} : leafref s = leafref t ↔ s = t :=
  ⟨fun h => by rw [← sym_leafref s, h, sym_leafref], fun h => h ▸ rfl⟩

theorem intref_inj {k l : Nat} (hk : k < 256) (hl : l < 256) : intref k = intref l ↔ k = l :=
  ⟨fun h => by rw [← idx_intref hk, h, idx_intref hl], fun h => h ▸ rfl⟩

theorem leafref_ne_intref (s : Symbol) (k : Nat) : leafref s ≠ intref k := fun h => by
  have := isInt_leafref s
  rw [h, isInt_intref] at this
  exact Bool.noConfusion this

/-- A reference is a leaf's or an internal node's. -/
theorem isLeaf_eq_false {r : NodeRef} : isLeaf r = false ↔ isInt r = true := by
  cases h : isInt r <;> simp [isLeaf, h]

end Sys2Proof.Machine
end

