-- ==== Sys2Proof/Laws/Table.lean ====
section
/-! SUPPORT. The symbol-indexed memories: reading after a write, the canonical form, and that a table
in canonical form is determined by what it reads. -/

namespace Sys2Proof.Machine

variable {α : Type}

@[simp] theorem Table.read_nil (s : Symbol) : Table.read ([] : Table α) s = none := rfl

theorem Table.read_cons (k : Symbol) (v : α) (t : Table α) (s : Symbol) :
    Table.read ((k, v) :: t) s = if k = s then some v else Table.read t s := rfl

/-- A read after a write gives the value written. -/
@[simp] theorem Table.read_write_same (t : Table α) (s : Symbol) (x : α) :
    Table.read (Table.write t s x) s = some x := by
  induction t with
  | nil => simp [Table.write, Table.read]
  | cons e t ih =>
    obtain ⟨k, v⟩ := e
    simp only [Table.write]
    split
    · simp [Table.read]
    · split
      · simp [Table.read]
      · rename_i h
        rw [Table.read_cons, if_neg (fun h' => h h'.symm), ih]

/-- A write leaves every other symbol alone. -/
theorem Table.read_write_other {t : Table α} {s y : Symbol} {x : α} (h : y ≠ s) :
    Table.read (Table.write t s x) y = Table.read t y := by
  induction t with
  | nil => simp [Table.write, Table.read, Ne.symm h]
  | cons e t ih =>
    obtain ⟨k, v⟩ := e
    simp only [Table.write]
    split
    · rw [Table.read_cons, if_neg (Ne.symm h)]
    · split
      · rename_i h'
        subst h'
        simp [Table.read_cons, Ne.symm h]
      · rw [Table.read_cons, ih, ← Table.read_cons]

theorem Table.read_write (t : Table α) (s y : Symbol) (x : α) :
    Table.read (Table.write t s x) y = if y = s then some x else Table.read t y := by
  by_cases h : y = s
  · simp [h]
  · simp [h, Table.read_write_other h]

theorem Table.wf_cons {k : Symbol} {v : α} {t : Table α} :
    Table.wf ((k, v) :: t) ↔ (∀ e ∈ t, k.toNat < e.1.toNat) ∧ Table.wf t := by
  rw [Table.wf, List.map_cons, List.pairwise_cons, List.forall_mem_map]

/-- The keys of a table after a write. -/
theorem Table.mem_write {t : Table α} {s : Symbol} {x : α} {e : Symbol × α}
    (h : e ∈ Table.write t s x) : e = (s, x) ∨ e ∈ t := by
  induction t with
  | nil => simpa [Table.write] using h
  | cons f t ih =>
    obtain ⟨k, v⟩ := f
    simp only [Table.write] at h
    split at h
    · simpa using h
    · split at h
      · rcases List.mem_cons.1 h with h | h
        · exact .inl h
        · exact .inr (List.mem_cons_of_mem _ h)
      · rcases List.mem_cons.1 h with h | h
        · exact .inr (h ▸ List.mem_cons_self)
        · exact (ih h).imp id (List.mem_cons_of_mem _)

/-- A write keeps the canonical form. -/
theorem Table.wf_write {t : Table α} (s : Symbol) (x : α) (h : Table.wf t) :
    Table.wf (Table.write t s x) := by
  induction t with
  | nil => simp [Table.write, Table.wf]
  | cons e t ih =>
    obtain ⟨k, v⟩ := e
    have ⟨hk, ht⟩ := Table.wf_cons.1 h
    simp only [Table.write]
    split
    · rename_i hlt
      rw [BitVec.lt_def] at hlt
      refine Table.wf_cons.2 ⟨fun e he => ?_, h⟩
      rcases List.mem_cons.1 he with rfl | he
      · exact hlt
      · exact Nat.lt_trans hlt (hk e he)
    · split
      · rename_i heq
        subst heq
        exact Table.wf_cons.2 ⟨hk, ht⟩
      · rename_i hlt hne
        have hne' : s.toNat ≠ k.toNat := fun h' => hne (BitVec.eq_of_toNat_eq h')
        rw [BitVec.lt_def] at hlt
        refine Table.wf_cons.2 ⟨fun e he => ?_, ih ht⟩
        rcases Table.mem_write he with rfl | he
        · show k.toNat < s.toNat
          omega
        · exact hk e he

theorem Table.wf_nil : Table.wf ([] : Table α) := by simp [Table.wf]

/-- A symbol is read exactly where its pair is listed. -/
theorem Table.read_eq_some {t : Table α} (h : Table.wf t) {s : Symbol} {x : α} :
    Table.read t s = some x ↔ (s, x) ∈ t := by
  induction t with
  | nil => simp
  | cons e t ih =>
    obtain ⟨k, v⟩ := e
    have ⟨hk, ht⟩ := Table.wf_cons.1 h
    rw [Table.read_cons]
    split
    · rename_i heq
      subst heq
      constructor
      · intro h'; simp_all
      · intro h'
        rcases List.mem_cons.1 h' with h' | h'
        · simp_all
        · exact absurd (hk _ h') (Nat.lt_irrefl _)
    · rename_i hne
      rw [ih ht, List.mem_cons]
      constructor
      · exact .inr
      · rintro (h' | h')
        · exact absurd (Prod.mk.inj h').1.symm hne
        · exact h'

theorem Table.read_eq_none {t : Table α} {s : Symbol} :
    Table.read t s = none ↔ ∀ e ∈ t, e.1 ≠ s := by
  induction t with
  | nil => simp
  | cons e t ih =>
    obtain ⟨k, v⟩ := e
    rw [Table.read_cons]
    split
    · simp_all
    · simp_all

/-- Two tables in canonical form that read alike are the same list. -/
theorem Table.ext_read {t u : Table α} (ht : Table.wf t) (hu : Table.wf u)
    (h : ∀ s, Table.read t s = Table.read u s) : t = u := by
  have hp : ∀ {t : Table α}, Table.wf t → t.Pairwise (fun a b => a.1.toNat < b.1.toNat) :=
    fun h => List.pairwise_map.1 h
  have hn : ∀ {t : Table α}, Table.wf t → t.Nodup := fun h =>
    (hp h).imp (fun hab heq => by subst heq; exact Nat.lt_irrefl _ hab)
  refine List.Perm.eq_of_pairwise (fun a b _ _ hab hba => absurd hab (Nat.lt_asymm hba)) (hp ht) (hp hu) ?_
  rw [List.perm_ext_iff_of_nodup (hn ht) (hn hu)]
  rintro ⟨s, x⟩
  rw [← Table.read_eq_some ht, ← Table.read_eq_some hu, h]

/-- A table in canonical form lists at most 256 symbols, as many as it reads. -/
theorem Table.length_eq_count {t : Table α} (h : Table.wf t) :
    t.length = (List.range 256).countP (fun k => (Table.read t (BitVec.ofNat 8 k)).isSome) := by
  have hnd : (t.map (fun e => e.1.toNat)).Nodup := h.imp (fun hab => Nat.ne_of_lt hab)
  rw [List.countP_eq_length_filter]
  rw [← List.length_map (f := fun e : Symbol × α => e.1.toNat) (as := t)]
  apply List.Perm.length_eq
  rw [List.perm_ext_iff_of_nodup hnd (List.nodup_range.filter _)]
  intro k
  simp only [List.mem_map, List.mem_filter, List.mem_range]
  constructor
  · rintro ⟨e, he, rfl⟩
    refine ⟨e.1.isLt, ?_⟩
    have := (Table.read_eq_some h).2 (show (e.1, e.2) ∈ t from he)
    simp [this]
  · rintro ⟨hk, hs⟩
    obtain ⟨x, hx⟩ := Option.isSome_iff_exists.1 hs
    refine ⟨_, (Table.read_eq_some h).1 hx, ?_⟩
    simp; omega

/-- A write counts a symbol once: the table grows by one where the symbol was absent. -/
theorem Table.length_write {t : Table α} (x : Symbol) (w : α) (hw : Table.wf t) :
    (Table.write t x w).length = t.length + if (Table.read t x).isSome then 0 else 1 := by
  induction t with
  | nil => simp [Table.write]
  | cons e t ih =>
    obtain ⟨k, v⟩ := e
    have ⟨hk, ht⟩ := Table.wf_cons.1 hw
    simp only [Table.write]
    split
    · rename_i hlt
      rw [BitVec.lt_def] at hlt
      have : Table.read ((k, v) :: t) x = none := by
        rw [Table.read_eq_none]
        rintro e he rfl
        rcases List.mem_cons.1 he with rfl | he
        · exact Nat.lt_irrefl _ hlt
        · exact Nat.lt_asymm hlt (hk e he)
      simp [this]
    · split
      · rename_i h
        simp [Table.read_cons, h]
      · rename_i h
        have : Table.read ((k, v) :: t) x = Table.read t x := if_neg (fun h' => h h'.symm)
        rw [this, List.length_cons, ih ht, List.length_cons]
        omega

theorem Table.length_le {t : Table α} (h : Table.wf t) : t.length ≤ 256 := by
  rw [Table.length_eq_count h]
  simpa using List.countP_le_length (l := List.range 256)
    (p := fun k => (Table.read t (BitVec.ofNat 8 k)).isSome)

end Sys2Proof.Machine
end

