-- ==== Sys2Proof/Laws/Tree.lean ====
section
/-! SUPPORT. The arena as a tree: a child is no parent's of two nodes, paths go down, a path to a node
is the only one, and every path goes on to a leaf (10_state.md R16, 42_codebook.md R125). -/

namespace Sys2Proof.Machine

/-- The references of all children, in order. -/
def childRefs (nodes : List NodeEntry) : List NodeRef := nodes.flatMap (fun e => [e.left, e.right])

theorem treeRefs_eq (nodes : List NodeEntry) (root : NodeRef) :
    treeRefs nodes root = root :: childRefs nodes := rfl

@[simp] theorem childRefs_append (a b : List NodeEntry) :
    childRefs (a ++ b) = childRefs a ++ childRefs b := by simp [childRefs]

@[simp] theorem childRefs_singleton (e : NodeEntry) : childRefs [e] = [e.left, e.right] := rfl

/-- What the arena of a tree satisfies, whatever the root (10_state.md R16 items 1 and 2). -/
structure Arena (nodes : List NodeEntry) : Prop where
  /-- There are at most 255 internal nodes. -/
  size : nodes.length ≤ 255
  /-- A child that is internal has a smaller index than its parent. -/
  lower : ∀ k < nodes.length, ∀ b : Bool,
    isInt (child nodes (intref k) b) = true → idx (child nodes (intref k) b) < k
  /-- No node is a child twice. -/
  once : (childRefs nodes).Nodup

/-- A reference that names a leaf or an entry of the arena. -/
def Inside (nodes : List NodeEntry) (r : NodeRef) : Prop := isInt r = true → idx r < nodes.length

theorem TreeInv.arena {s : State} (h : TreeInv s) : Arena s.node where
  size := by have := h.node_length; have := h.nsym_range; simp only [State.nint] at *; omega
  lower := h.children_lower
  once := (List.nodup_cons.1 h.refs_once).2

/-- The invariant of a tree speaks of NSYM, ROOT, NODE and CODE alone. -/
theorem TreeInv.congr {s t : State} (h : TreeInv s) (hn : t.nsym = s.nsym) (hr : t.root = s.root)
    (hd : t.node = s.node) (hc : t.code = s.code) : TreeInv t := by
  obtain ⟨h1, h2, h3, h4, h5, h6, h7, h8, h9, h10, h11⟩ := h
  refine ⟨?_, ?_, ?_, ?_, ?_, ?_, ?_, ?_, ?_, ?_, ?_⟩ <;>
    simp only [State.nint, State.codeValid, hn, hr, hd, hc] <;> assumption

/-- The children of node `k` stand at places `2k` and `2k + 1`. -/
theorem childRefs_getElem? {nodes : List NodeEntry} {k : Nat} (hk : k < nodes.length) (b : Bool) :
    (childRefs nodes)[2 * k + b.toNat]? =
      some (if b then nodes[k].right else nodes[k].left) := by
  induction nodes generalizing k with
  | nil => simp at hk
  | cons e nodes ih =>
    show (e.left :: e.right :: childRefs nodes)[2 * k + b.toNat]? = _
    cases k with
    | zero => cases b <;> rfl
    | succ k =>
      have := ih (k := k) (by simpa using hk)
      rw [show 2 * (k + 1) + b.toNat = (2 * k + b.toNat) + 1 + 1 by omega]
      simpa using this

theorem child_eq {nodes : List NodeEntry} {r : NodeRef} (hk : idx r < nodes.length) (b : Bool) :
    child nodes r b = if b then nodes[idx r].right else nodes[idx r].left := by
  simp [child, nodeAt, hk]

theorem childRefs_child {nodes : List NodeEntry} {r : NodeRef} (hk : idx r < nodes.length)
    (b : Bool) : (childRefs nodes)[2 * idx r + b.toNat]? = some (child nodes r b) := by
  rw [childRefs_getElem? hk, child_eq hk]

theorem child_mem {nodes : List NodeEntry} {r : NodeRef} (hk : idx r < nodes.length) (b : Bool) :
    child nodes r b ∈ childRefs nodes :=
  List.mem_of_getElem? (childRefs_child hk b)

/-- A member of the children is the child of some node. -/
theorem exists_child_of_mem {nodes : List NodeEntry} {r : NodeRef} (h : r ∈ childRefs nodes) :
    ∃ k, ∃ b : Bool, ∃ hk : k < nodes.length, r = if b then nodes[k].right else nodes[k].left := by
  obtain ⟨e, he, hr⟩ := List.mem_flatMap.1 h
  obtain ⟨k, hk, rfl⟩ := List.mem_iff_getElem.1 he
  rcases List.mem_cons.1 hr with rfl | hr
  · exact ⟨k, false, hk, by simp⟩
  · exact ⟨k, true, hk, by simpa using hr⟩

section
variable {nodes : List NodeEntry}

/-- A node is the child of one parent on one side (10_state.md R16 item 2). -/
theorem Arena.child_inj (h : Arena nodes) {r r' : NodeRef} {b b' : Bool}
    (hr : isInt r = true) (hr' : isInt r' = true)
    (hk : idx r < nodes.length) (hk' : idx r' < nodes.length)
    (he : child nodes r b = child nodes r' b') : r = r' ∧ b = b' := by
  have h1 := childRefs_child hk b
  have h2 := childRefs_child hk' b'
  rw [he] at h1
  have hlt := (List.getElem?_eq_some_iff.1 h1).1
  have hi : 2 * idx r + b.toNat = 2 * idx r' + b'.toNat :=
    (List.getElem?_inj hlt h.once).1 (h1.trans h2.symm)
  have hb : b.toNat < 2 := by cases b <;> decide
  have hb' : b'.toNat < 2 := by cases b' <;> decide
  refine ⟨?_, ?_⟩
  · rw [← intref_idx hr, ← intref_idx hr', show idx r = idx r' by omega]
  · have : b.toNat = b'.toNat := by omega
    revert this
    cases b <;> cases b' <;> decide

/-- An internal child has a smaller index than its parent, so it is inside the arena. -/
theorem Arena.child_lower (h : Arena nodes) {r : NodeRef} (hr : isInt r = true)
    (hk : idx r < nodes.length) {b : Bool} (hc : isInt (child nodes r b) = true) :
    idx (child nodes r b) < idx r := by
  have := h.lower (idx r) hk b
  rw [intref_idx hr] at this
  exact this hc

theorem Arena.child_inside (h : Arena nodes) {r : NodeRef} (hr : isInt r = true)
    (hk : Inside nodes r) (b : Bool) : Inside nodes (child nodes r b) := fun hc =>
  Nat.lt_trans (h.child_lower hr (hk hr) hc) (hk hr)

@[simp] theorem follow_nil (r : NodeRef) : follow nodes r [] = some r := rfl

theorem follow_cons (r : NodeRef) (b : Bool) (p : BitSeq) :
    follow nodes r (b :: p) = if isInt r then follow nodes (child nodes r b) p else none := rfl

theorem follow_cons_some {r t : NodeRef} {b : Bool} {p : BitSeq}
    (h : follow nodes r (b :: p) = some t) :
    isInt r = true ∧ follow nodes (child nodes r b) p = some t := by
  rw [follow_cons] at h
  split at h
  · exact ⟨‹_›, h⟩
  · cases h

theorem follow_append {r : NodeRef} {p q : BitSeq} :
    follow nodes r (p ++ q) = (follow nodes r p).bind (fun t => follow nodes t q) := by
  induction p generalizing r with
  | nil => rfl
  | cons b p ih =>
    rw [List.cons_append, follow_cons, follow_cons]
    split
    · exact ih
    · rfl

/-- The last edge of a path. -/
theorem follow_concat {r t : NodeRef} {p : BitSeq} {b : Bool}
    (h : follow nodes r (p ++ [b]) = some t) :
    ∃ u, follow nodes r p = some u ∧ isInt u = true ∧ child nodes u b = t := by
  rw [follow_append] at h
  obtain ⟨u, hu, hb⟩ := Option.bind_eq_some_iff.1 h
  obtain ⟨hi, hc⟩ := follow_cons_some hb
  exact ⟨u, hu, hi, by simpa using hc⟩

theorem Arena.follow_inside (h : Arena nodes) {r t : NodeRef} {p : BitSeq} (hr : Inside nodes r)
    (hp : follow nodes r p = some t) : Inside nodes t := by
  induction p generalizing r with
  | nil => cases hp; exact hr
  | cons b p ih =>
    obtain ⟨hi, hc⟩ := follow_cons_some hp
    exact ih (h.child_inside hi hr b) hc

/-- Paths go down: along a path of `p` edges from an internal node to an internal node the index
falls by at least as much. -/
theorem Arena.follow_lower (h : Arena nodes) {r t : NodeRef} {p : BitSeq} (hr : Inside nodes r)
    (hi : isInt r = true) (hp : follow nodes r p = some t) (ht : isInt t = true) :
    idx t + p.length ≤ idx r := by
  induction p generalizing r with
  | nil => cases hp; simp
  | cons b p ih =>
    obtain ⟨-, hc⟩ := follow_cons_some hp
    have hci : isInt (child nodes r b) = true := by
      cases p with
      | nil => cases hc; exact ht
      | cons b' p => exact (follow_cons_some hc).1
    have := ih (h.child_inside hi hr b) hci hc
    have := h.child_lower hi (hr hi) hci
    simp; omega

/-- A path from an internal node has at most one edge more than the node's index
(42_codebook.md R124). -/
theorem Arena.follow_length (h : Arena nodes) {r t : NodeRef} {p : BitSeq} (hr : Inside nodes r)
    (hi : isInt r = true) (hp : follow nodes r p = some t) : p.length ≤ idx r + 1 := by
  rcases List.eq_nil_or_concat p with rfl | ⟨q, b, rfl⟩
  · simp
  · rw [List.concat_eq_append] at hp ⊢
    obtain ⟨u, hu, hui, -⟩ := follow_concat hp
    have := h.follow_lower hr hi hu hui
    simp; omega

/-- A node is reached from another along one path only. -/
theorem Arena.follow_inj (h : Arena nodes) {r t : NodeRef} (hr : Inside nodes r) {p q : BitSeq}
    (hp : follow nodes r p = some t) (hq : follow nodes r q = some t) : p = q := by
  have cyc : ∀ {b : Bool} {p : BitSeq} {r : NodeRef}, Inside nodes r →
      follow nodes r (p ++ [b]) ≠ some r := by
    intro b p r hr hp
    obtain ⟨u, hu, hui, hc⟩ := follow_concat hp
    have hi : isInt r = true := by
      cases p with
      | nil => cases hu; exact hui
      | cons b' p => exact (follow_cons_some hu).1
    have := h.follow_lower hr hi hp hi
    simp at this
  induction p using List.reverseRecOn generalizing q t with
  | nil =>
    cases hp
    rcases List.eq_nil_or_concat q with rfl | ⟨q, b, rfl⟩
    · rfl
    · rw [List.concat_eq_append] at hq
      exact absurd hq (cyc hr)
  | append_singleton p b ih =>
    rcases List.eq_nil_or_concat q with rfl | ⟨q, b', rfl⟩
    · cases hq
      exact absurd hp (cyc hr)
    · rw [List.concat_eq_append] at hq ⊢
      obtain ⟨u, hu, hui, hc⟩ := follow_concat hp
      obtain ⟨u', hu', hui', hc'⟩ := follow_concat hq
      obtain ⟨rfl, rfl⟩ := h.child_inj hui hui' (h.follow_inside hr hu hui)
        (h.follow_inside hr hu' hui') (hc.trans hc'.symm)
      rw [ih hu hu']

/-- Going left from an internal node reaches a leaf (42_codebook.md R125). -/
theorem Arena.left_leaf (h : Arena nodes) {r : NodeRef} (hr : Inside nodes r)
    (hi : isInt r = true) :
    ∃ n t, n ≤ idx r ∧ follow nodes r (List.replicate (n + 1) false) = some t ∧
      isLeaf t = true := by
  induction hk : idx r using Nat.strongRecOn generalizing r with
  | ind k ih =>
    subst hk
    by_cases hc : isInt (child nodes r false) = true
    · have hlt := h.child_lower hi (hr hi) hc
      obtain ⟨n, t, hn, hf, ht⟩ := ih _ hlt (h.child_inside hi hr false) hc rfl
      refine ⟨n + 1, t, by omega, ?_, ht⟩
      rw [List.replicate_succ, follow_cons, if_pos hi, hf]
    · refine ⟨0, child nodes r false, Nat.zero_le _, ?_, by simpa [isLeaf] using hc⟩
      simp [follow_cons, hi]

/-- A bit sequence leads from an internal node past a leaf, or stays inside the tree. -/
theorem follow_splits (bits : BitSeq) {r : NodeRef} (hi : isInt r = true) :
    (∃ p q t, bits = p ++ q ∧ p ≠ [] ∧ follow nodes r p = some t ∧ isLeaf t = true) ∨
    ∃ t, follow nodes r bits = some t ∧ isInt t = true := by
  induction bits generalizing r with
  | nil => exact .inr ⟨r, rfl, hi⟩
  | cons b bits ih =>
    by_cases hc : isInt (child nodes r b) = true
    · rcases ih hc with ⟨p, q, t, rfl, -, hf, ht⟩ | ⟨t, hf, ht⟩
      · exact .inl ⟨b :: p, q, t, rfl, by simp, by rw [follow_cons, if_pos hi, hf], ht⟩
      · exact .inr ⟨t, by rw [follow_cons, if_pos hi, hf], ht⟩
    · exact .inl ⟨[b], bits, child nodes r b, rfl, by simp,
        by simp [follow_cons, hi], by simpa [isLeaf] using hc⟩

end

/-! ### Consequences for a state with a tree -/

section
variable {s : State}

theorem TreeInv.root_inside (h : TreeInv s) : Inside s.node s.root := by
  intro hi
  have hr := h.root_ref
  split at hr
  · rw [hr] at hi; simp at hi
  · have hn := h.node_length
    have := h.nsym_range
    simp only [State.nint] at hn
    rw [hr, idx_intref (by omega)]
    omega

/-- A tree of two or more leaves has an internal root. -/
theorem TreeInv.root_int (h : TreeInv s) (h2 : 2 ≤ s.nsym.toNat) : isInt s.root = true := by
  rw [h.root_ref, if_neg (by omega)]
  simp

/-- A tree of one leaf has a leaf as its root. -/
theorem TreeInv.root_leaf (h : TreeInv s) (h1 : s.nsym.toNat = 1) : isLeaf s.root = true := by
  rw [h.root_ref, if_pos h1]
  simp

theorem TreeInv.child_ne_root (h : TreeInv s) {r : NodeRef} (hk : idx r < s.node.length)
    (b : Bool) : child s.node r b ≠ s.root := fun he =>
  (List.nodup_cons.1 h.refs_once).1 (he ▸ child_mem hk b)

/-- A leaf reached from the root is one of the tree's references. -/
theorem TreeInv.follow_mem (h : TreeInv s) {p : BitSeq} {t : NodeRef}
    (hp : follow s.node s.root p = some t) : t ∈ treeRefs s.node s.root := by
  rcases List.eq_nil_or_concat p with rfl | ⟨q, b, rfl⟩
  · cases hp; exact List.mem_cons_self
  · rw [List.concat_eq_append] at hp
    obtain ⟨u, hu, hui, rfl⟩ := follow_concat hp
    exact List.mem_cons_of_mem _ (child_mem (h.arena.follow_inside h.root_inside hu hui) b)

/-- With two or more leaves, the code of a symbol is the path to its leaf (10_state.md R18). -/
theorem TreeInv.read_code (h : TreeInv s) (hw : Table.wf s.code) (h2 : 2 ≤ s.nsym.toNat)
    {x : Symbol} {p : BitSeq} :
    Table.read s.code x = some p ↔ follow s.node s.root p = some (leafref x) := by
  have path : ∀ {q}, Table.read s.code x = some q → follow s.node s.root q = some (leafref x) := by
    intro q hq
    have := h.code_path _ ((Table.read_eq_some hw).1 hq)
    rwa [if_neg (by omega)] at this
  refine ⟨path, fun hp => ?_⟩
  have hv := h.leaf_code _ (h.follow_mem hp) (by simp)
  rw [sym_leafref] at hv
  obtain ⟨q, hq⟩ := Option.isSome_iff_exists.1 hv
  rw [hq, h.arena.follow_inj h.root_inside hp (path hq)]

/-- With one leaf, the one code is `0` (42_codebook.md R121). -/
theorem TreeInv.read_code_one (h : TreeInv s) (hw : Table.wf s.code) (h1 : s.nsym.toNat = 1)
    {x : Symbol} {p : BitSeq} (hp : Table.read s.code x = some p) : p = [false] ∧ s.root = leafref x := by
  have hm := (Table.read_eq_some hw).1 hp
  have h' := h.code_path _ hm
  rw [if_pos h1] at h'
  refine ⟨h', ?_⟩
  have hl := h.code_leaf _ hm
  have hn : s.node = [] := List.eq_nil_of_length_eq_zero (by rw [h.node_length, State.nint, h1])
  rw [treeRefs_eq, hn] at hl
  simpa [childRefs, eq_comm] using hl

end

end Sys2Proof.Machine
end

