-- ==== Sys2Proof/Laws/Queue.lean ====
section
/-! SUPPORT. The builder's queue and its merges: the queue stays in the order of removal, each pass
is a `MergeStep`, and the entries and the arena together stay a forest over the present symbols
(41_treebuilder.md R102 to R106, R109). -/

namespace Sys2Proof.Machine

/-! ### The order of removal -/

theorem QueueEntry.before_iff (e f : QueueEntry) :
    e.before f = true ↔ e.w.toNat < f.w.toNat ∨
      e.w.toNat = f.w.toNat ∧ e.ref.toNat < f.ref.toNat := by
  simp only [QueueEntry.before, Bool.or_eq_true, Bool.and_eq_true, decide_eq_true_eq, beq_iff_eq,
    BitVec.lt_def]
  rw [← BitVec.toNat_inj]

theorem QueueEntry.before_false (e f : QueueEntry) :
    e.before f = false ↔ f.w.toNat < e.w.toNat ∨
      e.w.toNat = f.w.toNat ∧ f.ref.toNat ≤ e.ref.toNat := by
  rw [← Bool.not_eq_true, QueueEntry.before_iff]
  omega

/-- A queue in the order of removal. -/
def Ordered (q : List QueueEntry) : Prop := q.Pairwise (fun e f => f.before e = false)

theorem enqueue_perm (e : QueueEntry) (q : List QueueEntry) : (enqueue e q).Perm (e :: q) := by
  induction q with
  | nil => rfl
  | cons f q ih =>
    rw [enqueue]
    split
    · rfl
    · exact (ih.cons f).trans (List.Perm.swap e f q)

theorem enqueue_length (e : QueueEntry) (q : List QueueEntry) :
    (enqueue e q).length = q.length + 1 := (enqueue_perm e q).length_eq

theorem Ordered.enqueue {q : List QueueEntry} (e : QueueEntry) (h : Ordered q) :
    Ordered (enqueue e q) := by
  induction q with
  | nil => exact List.pairwise_singleton _ _
  | cons f q ih =>
    obtain ⟨hf, hq⟩ := List.pairwise_cons.1 h
    rw [Machine.enqueue]
    split
    · rename_i hb
      refine List.pairwise_cons.2 ⟨fun g hg => ?_, h⟩
      rw [QueueEntry.before_iff] at hb
      rcases List.mem_cons.1 hg with rfl | hg
      · rw [QueueEntry.before_false]; omega
      · have := hf g hg
        rw [QueueEntry.before_false] at *; omega
    · rename_i hb
      refine List.pairwise_cons.2 ⟨fun g hg => ?_, ih hq⟩
      rcases List.mem_cons.1 ((enqueue_perm e q).mem_iff.1 hg) with rfl | hg
      · simpa using hb
      · exact hf g hg

/-- The head of an ordered queue is its least entry (41_treebuilder.md R103). -/
theorem Ordered.least {e : QueueEntry} {q : List QueueEntry} (h : Ordered (e :: q)) :
    LeastEntry e (e ::ₘ (q : Multiset QueueEntry)) := by
  refine ⟨Multiset.mem_cons_self _ _, fun f hf hne => ?_⟩
  rcases Multiset.mem_cons.1 hf with rfl | hf
  · exact absurd rfl hne
  · have := (List.pairwise_cons.1 h).1 f (by simpa using hf)
    rw [QueueEntry.before_false] at this
    rw [BitVec.lt_def, BitVec.lt_def, ← BitVec.toNat_inj]
    rcases this with h | ⟨h, h'⟩
    · exact .inl h
    · refine .inr ⟨h.symm, Nat.lt_of_le_of_ne h' fun hr => hne ?_⟩
      obtain ⟨fw, fr⟩ := f
      obtain ⟨ew, er⟩ := e
      obtain rfl : fw = ew := BitVec.eq_of_toNat_eq h
      obtain rfl : er = fr := BitVec.eq_of_toNat_eq hr
      rfl

/-- Two least entries of a queue are one. -/
theorem LeastEntry.unique {e f : QueueEntry} {q : Multiset QueueEntry} (he : LeastEntry e q)
    (hf : LeastEntry f q) : e = f := by
  by_contra hne
  have h1 := he.2 f hf.1 (Ne.symm hne)
  have h2 := hf.2 e he.1 hne
  simp only [BitVec.lt_def, ← BitVec.toNat_inj] at h1 h2
  omega

/-! ### The initial queue -/

theorem foldr_enqueue (l : List QueueEntry) :
    (l.foldr enqueue []).Perm l ∧ Ordered (l.foldr enqueue []) := by
  induction l with
  | nil => exact ⟨.rfl, List.Pairwise.nil⟩
  | cons e l ih => exact ⟨(enqueue_perm e _).trans (ih.1.cons e), ih.2.enqueue e⟩

theorem initialQueue_ordered (freq : Table Weight) : Ordered (initialQueue freq) :=
  (foldr_enqueue _).2

theorem initialQueue_perm (freq : Table Weight) :
    (initialQueue freq).Perm (freq.map (fun e => ⟨zext40 e.2, leafref e.1⟩)) := (foldr_enqueue _).1

/-- The symbols of a table, listed in rising order, are the present symbols. -/
theorem Table.keys_perm {α : Type} {t : Table α} (h : Table.wf t) :
    (((List.range 256).map (BitVec.ofNat 8)).filter (fun x => (Table.read t x).isSome)).Perm
      (t.map (·.1)) := by
  have hk : (t.map (·.1)).Nodup :=
    List.Nodup.of_map BitVec.toNat
      (by rw [List.map_map]; exact h.imp (fun hab => Nat.ne_of_lt hab))
  have hr : ((List.range 256).map (BitVec.ofNat 8)).Nodup := by
    refine List.Nodup.map_on (fun a ha b hb hab => ?_) List.nodup_range
    have := congrArg BitVec.toNat hab
    simp only [BitVec.toNat_ofNat, List.mem_range] at *
    omega
  rw [List.perm_ext_iff_of_nodup (hr.filter _) hk]
  intro x
  rw [List.mem_filter, List.mem_map, List.mem_map]
  constructor
  · rintro ⟨-, hx⟩
    obtain ⟨v, hv⟩ := Option.isSome_iff_exists.1 hx
    exact ⟨_, (Table.read_eq_some h).1 hv, rfl⟩
  · rintro ⟨e, he, rfl⟩
    exact ⟨⟨e.1.toNat, by simpa using e.1.isLt, by simp⟩,
      Option.isSome_iff_exists.2 ⟨e.2, (Table.read_eq_some h).2 he⟩⟩

theorem initialQueue_entries {s : State} (h : Table.wf s.freq) :
    (initialQueue s.freq : Multiset QueueEntry) = initialEntries s := by
  rw [initialEntries, Multiset.coe_eq_coe]
  refine (initialQueue_perm s.freq).trans (List.Perm.symm ?_)
  have hp := (Table.keys_perm h).map (fun x => QueueEntry.mk (zext40 (s.weight x)) (leafref x))
  refine List.Perm.trans hp (List.Perm.of_eq ?_)
  rw [List.map_map]
  refine List.map_congr_left fun e he => ?_
  have : Table.read s.freq e.1 = some e.2 := (Table.read_eq_some h).2 he
  simp [State.weight, this]

/-! ### The merges -/

/-- The loop is a sequence of merge steps that ends with one entry. -/
theorem mergeLoop_steps {m : Nat} {q : List QueueEntry} (ho : Ordered q) (hm : q.length = m + 1)
    (nodes : List NodeEntry) : ∃ e nodes', mergeLoop m q nodes = ([e], nodes') ∧
      Relation.ReflTransGen MergeStep ((q : Multiset QueueEntry), nodes) ({e}, nodes') := by
  induction m generalizing q nodes with
  | zero =>
    obtain ⟨e, rfl⟩ := List.length_eq_one_iff.1 hm
    exact ⟨e, nodes, rfl, .refl⟩
  | succ m ih =>
    match q, hm, ho with
    | e₁ :: e₂ :: q, hm, ho =>
      obtain ⟨h1, h2⟩ := List.pairwise_cons.1 ho
      obtain ⟨-, h3⟩ := List.pairwise_cons.1 h2
      obtain ⟨e, nodes', he, hs⟩ := ih (q := enqueue ⟨e₁.w + e₂.w, intref nodes.length⟩ q)
        (Ordered.enqueue _ h3) (by rw [enqueue_length]; simpa using hm)
        (nodes ++ [⟨e₁.ref, e₂.ref⟩])
      refine ⟨e, nodes', he, .head ?_ hs⟩
      have hq : (enqueue ⟨e₁.w + e₂.w, intref nodes.length⟩ q : Multiset QueueEntry) =
          ⟨e₁.w + e₂.w, intref nodes.length⟩ ::ₘ (q : Multiset QueueEntry) := by
        rw [Multiset.cons_coe]; exact Multiset.coe_eq_coe.2 (enqueue_perm _ _)
      rw [hq, ← Multiset.cons_coe, ← Multiset.cons_coe]
      exact .merge e₁ e₂ q nodes (by simpa using ho.least) (by simpa using Ordered.least h2)

/-- The entries of the queue and the arena as a forest over the symbols `leaves`: each leaf and each
node is an entry's reference or a child, once (41_treebuilder.md R104, R106, R109). -/
structure Forest (leaves : List Symbol) (q : Multiset QueueEntry) (nodes : List NodeEntry) : Prop where
  refs : ((childRefs nodes : Multiset NodeRef) + q.map (·.ref)) =
    leaves.map leafref + (List.range nodes.length).map intref
  lower : ∀ k < nodes.length, ∀ b : Bool,
    isInt (child nodes (intref k) b) = true → idx (child nodes (intref k) b) < k

theorem childRefs_length (nodes : List NodeEntry) :
    (childRefs nodes).length = 2 * nodes.length := by
  induction nodes with
  | nil => rfl
  | cons e nodes ih => simp [childRefs] at *; omega

theorem Forest.card {leaves : List Symbol} {q : Multiset QueueEntry} {nodes : List NodeEntry}
    (h : Forest leaves q nodes) : nodes.length + q.card = leaves.length := by
  have := congrArg Multiset.card h.refs
  simp [childRefs_length] at this
  omega

theorem Forest.ref_idx {leaves : List Symbol} {q : Multiset QueueEntry} {nodes : List NodeEntry}
    (h : Forest leaves q nodes) (hl : leaves.length ≤ 256) {r : NodeRef}
    (hr : r ∈ (childRefs nodes : Multiset NodeRef) + q.map (·.ref)) (hi : isInt r = true) (hq : q ≠ 0) :
    idx r < nodes.length := by
  have hc := h.card
  have hpos : 0 < q.card := Multiset.card_pos.2 hq
  rw [h.refs] at hr
  simp only [Multiset.mem_add, Multiset.mem_coe, List.mem_map, List.mem_range] at hr
  rcases hr with ⟨x, -, rfl⟩ | ⟨k, hk, rfl⟩
  · simp at hi
  · rwa [idx_intref (by omega)]

theorem Forest.step {leaves : List Symbol} (hl : leaves.length ≤ 256)
    {a b : Multiset QueueEntry × List NodeEntry} (h : Forest leaves a.1 a.2) (hs : MergeStep a b) :
    Forest leaves b.1 b.2 := by
  obtain ⟨e₁, e₂, q, nodes, -, -⟩ := hs
  have hc := h.card
  simp only [Multiset.card_cons] at hc
  refine ⟨?_, ?_⟩
  · have := h.refs
    simp only [Multiset.map_cons, childRefs_append, childRefs_singleton, List.length_append,
      List.length_singleton, List.range_succ, List.map_append, List.map_singleton,
      ← Multiset.coe_add] at this ⊢
    rw [← add_assoc, ← this]
    simp only [← Multiset.cons_coe, ← Multiset.singleton_add, Multiset.coe_nil, add_zero]
    abel
  · intro k hk b hi
    simp only [List.length_append, List.length_singleton] at hk
    have hidx : idx (intref k) = k := idx_intref (by omega)
    by_cases hlt : k < nodes.length
    · have he : child (nodes ++ [⟨e₁.ref, e₂.ref⟩]) (intref k) b = child nodes (intref k) b := by
        simp only [child, nodeAt, hidx, List.getD_append _ _ _ _ hlt]
      rw [he] at hi ⊢
      exact h.lower k hlt b hi
    · obtain rfl : k = nodes.length := by omega
      have he : child (nodes ++ [⟨e₁.ref, e₂.ref⟩]) (intref nodes.length) b =
          if b then e₂.ref else e₁.ref := by
        simp [child, nodeAt, hidx]
      rw [he] at hi ⊢
      refine h.ref_idx hl ?_ hi (by simp)
      cases b <;> simp

theorem Forest.steps {leaves : List Symbol} (hl : leaves.length ≤ 256)
    {a b : Multiset QueueEntry × List NodeEntry} (h : Forest leaves a.1 a.2)
    (hs : Relation.ReflTransGen MergeStep a b) : Forest leaves b.1 b.2 := by
  induction hs with
  | refl => exact h
  | tail _ hs ih => exact ih.step hl hs

theorem Forest.initial (freq : Table Weight) :
    Forest (freq.map (·.1)) (initialQueue freq : Multiset QueueEntry) [] := by
  refine ⟨?_, by simp⟩
  rw [Multiset.coe_eq_coe.2 (initialQueue_perm freq)]
  simp [childRefs, Function.comp_def]

/-! ### What the builder leaves -/

/-- What the builder leaves of a table (41_treebuilder.md R104 to R106, R109). -/
structure Built (freq : Table Weight) (nodes : List NodeEntry) (root : NodeRef) : Prop where
  /-- One node for each merge (R105). -/
  node_length : nodes.length + 1 = freq.length
  /-- The references of the tree are those of its leaves and its nodes. -/
  refs : (treeRefs nodes root).Perm
    ((freq.map (·.1)).map leafref ++ (List.range nodes.length).map intref)
  /-- A child that is internal has a smaller index than its parent (R106). -/
  lower : ∀ k < nodes.length, ∀ b : Bool,
    isInt (child nodes (intref k) b) = true → idx (child nodes (intref k) b) < k

/-- The builder succeeds on every non-empty table, by merge steps. -/
theorem buildTree_spec {freq : Table Weight} (hw : Table.wf freq) (hne : freq ≠ []) :
    ∃ nodes e, buildTree freq = some (nodes, e.ref) ∧ Built freq nodes e.ref ∧
      Relation.ReflTransGen MergeStep ((initialQueue freq : Multiset QueueEntry), [])
        ({e}, nodes) := by
  have hl := Table.length_le hw
  have hpos : 0 < freq.length := List.length_pos_iff.2 hne
  have hq : (initialQueue freq).length = (freq.length - 1) + 1 := by
    rw [(initialQueue_perm freq).length_eq, List.length_map]; omega
  obtain ⟨e, nodes, he, hs⟩ := mergeLoop_steps (initialQueue_ordered freq) hq []
  have hf := (Forest.initial freq).steps (by simpa using hl) hs
  refine ⟨nodes, e, by rw [buildTree, he], ⟨?_, ?_, hf.lower⟩, hs⟩
  · simpa using hf.card
  · have := hf.refs
    rw [Multiset.map_singleton, add_comm, Multiset.singleton_add, Multiset.cons_coe,
      Multiset.coe_add] at this
    exact Multiset.coe_eq_coe.1 this

/-- Whatever tree the builder leaves is built of the table. -/
theorem built_of_buildTree {freq : Table Weight} (hw : Table.wf freq) {nodes : List NodeEntry}
    {root : NodeRef} (h : buildTree freq = some (nodes, root)) : Built freq nodes root := by
  have hne : freq ≠ [] := fun he => by rw [he] at h; cases h
  obtain ⟨n, e, hb, hB, -⟩ := buildTree_spec hw hne
  rw [hb] at h
  cases h
  exact hB

theorem buildTree_nil : buildTree [] = none := rfl

end Sys2Proof.Machine
end

