-- ==== Sys2Proof/Laws/Codes.lean ====
section
/-! SUPPORT. The codebook that BUILD derives: a symbol's code is the path to its leaf, and the tree and
the codebook that BUILD commits meet the invariants of 10_state.md R16 and R18
(42_codebook.md R120 to R125). -/

namespace Sys2Proof.Machine

section
variable {nodes : List NodeEntry}

/-- The walk writes only symbols whose leaves it reaches. -/
theorem walkCodes_other {d : Nat} {r : NodeRef} {x : Symbol}
    (hx : ∀ q, follow nodes r q ≠ some (leafref x)) (p : BitSeq) (c : Table BitSeq) :
    Table.read (walkCodes nodes d r p c) x = Table.read c x := by
  induction d generalizing r p c with
  | zero => rfl
  | succ d ih =>
    rw [walkCodes]
    split
    · rename_i hl
      refine Table.read_write_other fun he => hx [] ?_
      rw [he, leafref_sym hl]; rfl
    · rename_i hl
      have hi : isInt r = true := by simpa [isLeaf] using hl
      have hc : ∀ b q, follow nodes (child nodes r b) q ≠ some (leafref x) := fun b q hq =>
        hx (b :: q) (by rw [follow_cons, if_pos hi, hq])
      rw [ih (hc true), ih (hc false)]

/-- The walk writes, for each leaf it reaches, the bits accumulated along its path. -/
theorem Arena.walkCodes_path (h : Arena nodes) {d : Nat} {r : NodeRef} (hr : Inside nodes r)
    (hd : isInt r = true → idx r + 1 < d) (hd0 : 0 < d) {x : Symbol} {q : BitSeq}
    (hx : follow nodes r q = some (leafref x)) (p : BitSeq) (c : Table BitSeq) :
    Table.read (walkCodes nodes d r p c) x = some (p ++ q) := by
  induction d generalizing r p q c with
  | zero => exact absurd hd0 (by decide)
  | succ d ih =>
    rw [walkCodes]
    split
    · rename_i hl
      cases q with
      | nil => cases hx; simp
      | cons b q => rw [isLeaf_eq_false.2 (follow_cons_some hx).1] at hl; cases hl
    · rename_i hl
      have hi : isInt r = true := by simpa [isLeaf] using hl
      have hlow := hd hi
      have hcd : ∀ b, isInt (child nodes r b) = true → idx (child nodes r b) + 1 < d := fun b hb => by
        have := h.child_lower hi (hr hi) hb
        omega
      cases q with
      | nil => cases hx; simp at hi
      | cons b q =>
        have hq := (follow_cons_some hx).2
        cases b with
        | true =>
          rw [ih (h.child_inside hi hr true) (hcd true) (by omega) hq]; simp
        | false =>
          rw [walkCodes_other (fun q' hq' => ?_),
            ih (h.child_inside hi hr false) (hcd false) (by omega) hq]
          · simp
          · have hp' : follow nodes r (true :: q') = some (leafref x) := by
              rw [follow_cons, if_pos hi, hq']
            have := h.follow_inj hr hx hp'
            simp at this

theorem walkCodes_wf {d : Nat} {r : NodeRef} {p : BitSeq} {c : Table BitSeq} (hc : Table.wf c) :
    Table.wf (walkCodes nodes d r p c) := by
  induction d generalizing r p c with
  | zero => exact hc
  | succ d ih =>
    rw [walkCodes]
    split
    · exact Table.wf_write _ _ hc
    · exact ih (ih hc)

theorem deriveCodes_wf (r : NodeRef) : Table.wf (deriveCodes nodes r) := by
  rw [deriveCodes]
  split
  · exact Table.wf_write _ _ Table.wf_nil
  · exact walkCodes_wf Table.wf_nil

/-- With an internal root, a symbol's code is the path from the root to its leaf. -/
theorem Arena.read_deriveCodes (h : Arena nodes) {r : NodeRef} (hr : Inside nodes r)
    (hi : isInt r = true) {x : Symbol} {q : BitSeq} :
    Table.read (deriveCodes nodes r) x = some q ↔ follow nodes r q = some (leafref x) := by
  have hl : ¬ isLeaf r = true := by simp [isLeaf, hi]
  have hk := hr hi
  rw [deriveCodes, if_neg hl]
  constructor
  · intro hq
    by_contra hne
    by_cases hex : ∃ q', follow nodes r q' = some (leafref x)
    · obtain ⟨q', hq'⟩ := hex
      rw [h.walkCodes_path hr (fun _ => by omega) (by omega) hq'] at hq
      cases hq
      exact hne (by simpa using hq')
    · rw [walkCodes_other (fun q' hq' => hex ⟨q', hq'⟩)] at hq
      cases hq
  · intro hq
    rw [h.walkCodes_path hr (fun _ => by omega) (by omega) hq]
    simp

end

/-! ### Every node of a tree is reached from its root -/

/-- A reference inside the tree is reached from the root (10_state.md R16 item 2). -/
theorem exists_path {nodes : List NodeEntry} (h : Arena nodes) {root r : NodeRef}
    (hall : ∀ k < nodes.length, intref k ∈ treeRefs nodes root) (hr : r ∈ treeRefs nodes root) :
    ∃ q, follow nodes root q = some r := by
  have size := h.size
  -- from the top of the arena down: a parent stands above its child
  have key : ∀ m, ∀ r, r ∈ treeRefs nodes root → (isInt r = true → nodes.length ≤ idx r + m) →
      (isInt r = false → nodes.length < m) → ∃ q, follow nodes root q = some r := by
    intro m
    induction m with
    | zero =>
      intro r hr h1 h2
      rcases List.mem_cons.1 hr with rfl | hr
      · exact ⟨[], rfl⟩
      · obtain ⟨k, b, hk, rfl⟩ := exists_child_of_mem hr
        by_cases hi : isInt (if b then nodes[k].right else nodes[k].left) = true
        · have h1' := h1 hi
          have := h.lower k hk b
          rw [child_eq (by rwa [idx_intref (by omega)])] at this
          simp only [idx_intref (show k < 256 by omega)] at this
          have := this hi
          omega
        · have := h2 (by simpa using hi)
          omega
    | succ m ih =>
      intro r hr h1 h2
      rcases List.mem_cons.1 hr with rfl | hr
      · exact ⟨[], rfl⟩
      · obtain ⟨k, b, hk, hrk⟩ := exists_child_of_mem hr
        have hidx : idx (intref k) = k := idx_intref (by omega)
        have hc : child nodes (intref k) b = r := by
          rw [child_eq (by rwa [hidx]), hrk]; simp only [hidx]
        have hkm : nodes.length ≤ k + m := by
          by_cases hi : isInt r = true
          · have := h.lower k hk b (by rwa [hc])
            rw [hc] at this
            have := h1 hi
            omega
          · have := h2 (by simpa using hi)
            omega
        obtain ⟨q, hq⟩ := ih (intref k) (hall k hk) (fun _ => by rwa [hidx]) (by simp)
        exact ⟨q ++ [b], by rw [follow_append, hq]; simp [follow_cons, hc]⟩
  exact key (nodes.length + 1) r hr (fun _ => by omega) (fun _ => by omega)

/-! ### What BUILD commits -/

section
variable {freq : Table Weight} {nodes : List NodeEntry} {root : NodeRef}

theorem keys_nodup {α : Type} {t : Table α} (h : Table.wf t) : (t.map (·.1)).Nodup :=
  List.Nodup.of_map BitVec.toNat (by rw [List.map_map]; exact h.imp (fun hab => Nat.ne_of_lt hab))

theorem Built.refs_nodup (h : Built freq nodes root) (hw : Table.wf freq) :
    (treeRefs nodes root).Nodup := by
  have hl := Table.length_le hw
  have hn := h.node_length
  rw [h.refs.nodup_iff, List.nodup_append]
  refine ⟨(keys_nodup hw).map (fun a b => leafref_inj.1), ?_, ?_⟩
  · refine List.Nodup.map_on (fun a ha b hb hab => ?_) List.nodup_range
    rw [List.mem_range] at ha hb
    exact (intref_inj (by omega) (by omega)).1 hab
  · rintro _ ha _ hb rfl
    obtain ⟨x, -, rfl⟩ := List.mem_map.1 ha
    obtain ⟨k, -, hk⟩ := List.mem_map.1 hb
    exact leafref_ne_intref x k hk.symm

theorem Built.arena (h : Built freq nodes root) (hw : Table.wf freq) : Arena nodes where
  size := by have := Table.length_le hw; have := h.node_length; omega
  lower := h.lower
  once := (List.nodup_cons.1 (h.refs_nodup hw)).2

/-- The leaves of the tree are the present symbols (41_treebuilder.md R109). -/
theorem Built.leaf_iff (h : Built freq nodes root) (hw : Table.wf freq) (x : Symbol) :
    leafref x ∈ treeRefs nodes root ↔ (Table.read freq x).isSome := by
  rw [h.refs.mem_iff, List.mem_append, Option.isSome_iff_exists]
  constructor
  · rintro (hx | hx)
    · rw [List.mem_map_of_injective (fun a b => leafref_inj.1)] at hx
      obtain ⟨e, he, rfl⟩ := List.mem_map.1 hx
      exact ⟨e.2, (Table.read_eq_some hw).2 he⟩
    · obtain ⟨k, -, hk⟩ := List.mem_map.1 hx
      exact absurd hk.symm (leafref_ne_intref x k)
  · rintro ⟨w, hx⟩
    exact .inl (List.mem_map_of_mem (List.mem_map.2 ⟨_, (Table.read_eq_some hw).1 hx, rfl⟩))

theorem Built.nodes_mem (h : Built freq nodes root) (k : Nat) (hk : k < nodes.length) :
    intref k ∈ treeRefs nodes root :=
  h.refs.mem_iff.2 (List.mem_append_right _ (List.mem_map_of_mem (List.mem_range.2 hk)))

/-- The root is the one leaf, or the node created last (10_state.md R13). -/
theorem Built.root_ref (h : Built freq nodes root) (hw : Table.wf freq) :
    root = if freq.length = 1 then leafref (sym root) else intref (freq.length - 2) := by
  have hn := h.node_length
  have hl := Table.length_le hw
  split
  · have hnil : nodes = [] := List.eq_nil_of_length_eq_zero (by omega)
    subst hnil
    have hm : root ∈ (freq.map (·.1)).map leafref := by
      have := h.refs.mem_iff (a := root)
      simpa [treeRefs] using this
    obtain ⟨x, -, rfl⟩ := List.mem_map.1 hm
    rw [sym_leafref]
  · have hk : nodes.length - 1 < nodes.length := by omega
    rcases List.mem_cons.1 (h.nodes_mem _ hk) with he | hm
    · rw [← he]; congr 1; omega
    · obtain ⟨k, b, hk', he⟩ := exists_child_of_mem hm
      have hidx : idx (intref k) = k := idx_intref (by omega)
      have hc : child nodes (intref k) b = intref (nodes.length - 1) := by
        rw [child_eq (by rwa [hidx]), he]; simp only [hidx]
      have := h.lower k hk' b (by rw [hc]; simp)
      rw [hc, idx_intref (by omega)] at this
      omega

theorem Built.root_inside (h : Built freq nodes root) (hw : Table.wf freq) : Inside nodes root := by
  have hn := h.node_length
  have hl := Table.length_le hw
  intro hi
  have hr := h.root_ref hw
  split at hr
  · rw [hr] at hi; simp at hi
  · rw [hr, idx_intref (by omega)]; omega

/-- The root of a tree of two or more leaves is internal, that of one leaf is the leaf. -/
theorem Built.root_int (h : Built freq nodes root) (hw : Table.wf freq) (h2 : 2 ≤ freq.length) :
    isInt root = true := by
  rw [h.root_ref hw, if_neg (by omega)]; simp

theorem Built.of_singleton {x : Symbol} {w : Weight} (h : Built [(x, w)] nodes root) :
    nodes = [] ∧ root = leafref x := by
  have hnil : nodes = [] := List.eq_nil_of_length_eq_zero (by simpa using h.node_length)
  subst hnil
  exact ⟨rfl, by simpa [treeRefs] using h.refs⟩

/-- The symbols with a code are the present ones (42_codebook.md R123). -/
theorem Built.code_iff (h : Built freq nodes root) (hw : Table.wf freq) (x : Symbol) :
    (Table.read (deriveCodes nodes root) x).isSome ↔ (Table.read freq x).isSome := by
  have ha := h.arena hw
  have hin := h.root_inside hw
  by_cases hi : isInt root = true
  · rw [← h.leaf_iff hw, Option.isSome_iff_exists]
    constructor
    · rintro ⟨q, hq⟩
      have hf := (ha.read_deriveCodes hin hi).1 hq
      rcases List.eq_nil_or_concat q with rfl | ⟨q, b, rfl⟩
      · cases hf; simp at hi
      · rw [List.concat_eq_append] at hf
        obtain ⟨u, hu, hui, hc⟩ := follow_concat hf
        rw [← hc]
        exact List.mem_cons_of_mem _ (child_mem (ha.follow_inside hin hu hui) b)
    · intro hm
      obtain ⟨q, hq⟩ := exists_path ha h.nodes_mem hm
      exact ⟨q, (ha.read_deriveCodes hin hi).2 hq⟩
  · have h1 : freq.length = 1 := by
      by_contra hne
      have := h.node_length
      exact hi (h.root_int hw (by omega))
    obtain ⟨⟨y, w⟩, rfl⟩ := List.length_eq_one_iff.1 h1
    obtain ⟨rfl, rfl⟩ := h.of_singleton
    simp [deriveCodes, Table.write, Table.read]

theorem Built.code_length (h : Built freq nodes root) (hw : Table.wf freq) :
    (deriveCodes nodes root).length = freq.length := by
  rw [Table.length_eq_count (deriveCodes_wf root), Table.length_eq_count hw]
  refine List.countP_congr fun k _ => ?_
  simpa using h.code_iff hw (BitVec.ofNat 8 k)

/-- What BUILD commits meets the invariants of a tree (10_state.md R12, R13, R16, R18). -/
theorem Built.treeInv {s : State} (h : Built s.freq nodes root) (hw : Table.wf s.freq) :
    TreeInv (s.commitTree nodes root) := by
  have ha := h.arena hw
  have hin := h.root_inside hw
  have hl := Table.length_le hw
  have hn := h.node_length
  have hnsym : (s.commitTree nodes root).nsym.toNat = s.freq.length := by
    show (BitVec.ofNat 9 s.freq.length).toNat = _
    rw [BitVec.toNat_ofNat]; omega
  have hcw := deriveCodes_wf (nodes := nodes) root
  have hread : ∀ {e}, e ∈ deriveCodes nodes root → Table.read (deriveCodes nodes root) e.1 = some e.2 :=
    fun he => (Table.read_eq_some hcw).2 he
  refine
    { nsym_range := by rw [hnsym]; omega
      node_length := by rw [State.nint, hnsym]; show nodes.length = _; omega
      root_ref := by rw [hnsym]; exact h.root_ref hw
      children_lower := h.lower
      refs_once := h.refs_nodup hw
      refs_all := h.nodes_mem
      code_count := by rw [hnsym]; exact h.code_length hw
      code_leaf := fun e he => ?_
      leaf_code := fun r hr hl => ?_
      code_path := fun e he => ?_
      code_length := fun e he => ?_ }
  · exact (h.leaf_iff hw e.1).2 ((h.code_iff hw e.1).1 (by rw [hread he]; rfl))
  · refine (h.code_iff hw (sym r)).2 ((h.leaf_iff hw (sym r)).1 ?_)
    rwa [leafref_sym hl]
  · rw [hnsym]
    split
    · rename_i h1
      obtain ⟨⟨y, w⟩, hy⟩ := List.length_eq_one_iff.1 h1
      rw [hy] at h
      obtain ⟨rfl, rfl⟩ := h.of_singleton
      have : e = (y, [false]) := by simpa [State.commitTree, deriveCodes, Table.write] using he
      rw [this]
    · exact (ha.read_deriveCodes hin (h.root_int hw (by omega))).1 (hread he)
  · by_cases h1 : s.freq.length = 1
    · obtain ⟨⟨y, w⟩, hy⟩ := List.length_eq_one_iff.1 h1
      rw [hy] at h
      obtain ⟨rfl, rfl⟩ := h.of_singleton
      have : e = (y, [false]) := by simpa [State.commitTree, deriveCodes, Table.write] using he
      rw [this]; exact ⟨Nat.le_refl 1, by simp⟩
    · have hi := h.root_int hw (by omega)
      have hf := (ha.read_deriveCodes hin hi).1 (hread he)
      have := ha.follow_length hin hi hf
      have := hin hi
      have := ha.size
      refine ⟨?_, by omega⟩
      rcases hq : e.2 with - | ⟨b, q⟩
      · rw [hq] at hf; cases hf; simp at hi
      · simp

end

end Sys2Proof.Machine
end

