-- ==== Sys2Proof/Laws/State.lean ====
section
/-! SUPPORT. One lemma per field and update of `State`, so that no proof unfolds a record update; and
the observations of the state (lengths, flags, outputs) after the updates. -/

namespace Sys2Proof.Machine

/-! ### `State.withResponse` -/

@[simp] theorem State.withResponse_config (s : State) (w : RspWord) :
    (s.withResponse w).config = s.config := rfl
@[simp] theorem State.withResponse_freq (s : State) (w : RspWord) :
    (s.withResponse w).freq = s.freq := rfl
@[simp] theorem State.withResponse_tvalid (s : State) (w : RspWord) :
    (s.withResponse w).tvalid = s.tvalid := rfl
@[simp] theorem State.withResponse_nsym (s : State) (w : RspWord) :
    (s.withResponse w).nsym = s.nsym := rfl
@[simp] theorem State.withResponse_root (s : State) (w : RspWord) :
    (s.withResponse w).root = s.root := rfl
@[simp] theorem State.withResponse_node (s : State) (w : RspWord) :
    (s.withResponse w).node = s.node := rfl
@[simp] theorem State.withResponse_code (s : State) (w : RspWord) :
    (s.withResponse w).code = s.code := rfl
@[simp] theorem State.withResponse_byteBuf (s : State) (w : RspWord) :
    (s.withResponse w).byteBuf = s.byteBuf := rfl
@[simp] theorem State.withResponse_bitBuf (s : State) (w : RspWord) :
    (s.withResponse w).bitBuf = s.bitBuf := rfl
@[simp] theorem State.withResponse_phase (s : State) (w : RspWord) :
    (s.withResponse w).phase = .resp := rfl
@[simp] theorem State.withResponse_rspreg (s : State) (w : RspWord) :
    (s.withResponse w).rspreg = w := rfl
@[simp] theorem State.withResponse_pins (s : State) (w : RspWord) :
    (s.withResponse w).pins = s.pins := rfl
@[simp] theorem State.withResponse_accepted (s : State) (w : RspWord) :
    (s.withResponse w).accepted = s.accepted := rfl

/-! ### `State.responseTaken` -/

@[simp] theorem State.responseTaken_config (s : State) :
    (s.responseTaken).config = s.config := rfl
@[simp] theorem State.responseTaken_freq (s : State) :
    (s.responseTaken).freq = s.freq := rfl
@[simp] theorem State.responseTaken_tvalid (s : State) :
    (s.responseTaken).tvalid = s.tvalid := rfl
@[simp] theorem State.responseTaken_nsym (s : State) :
    (s.responseTaken).nsym = s.nsym := rfl
@[simp] theorem State.responseTaken_root (s : State) :
    (s.responseTaken).root = s.root := rfl
@[simp] theorem State.responseTaken_node (s : State) :
    (s.responseTaken).node = s.node := rfl
@[simp] theorem State.responseTaken_code (s : State) :
    (s.responseTaken).code = s.code := rfl
@[simp] theorem State.responseTaken_byteBuf (s : State) :
    (s.responseTaken).byteBuf = s.byteBuf := rfl
@[simp] theorem State.responseTaken_bitBuf (s : State) :
    (s.responseTaken).bitBuf = s.bitBuf := rfl
@[simp] theorem State.responseTaken_phase (s : State) :
    (s.responseTaken).phase = .idle := rfl
@[simp] theorem State.responseTaken_rspreg (s : State) :
    (s.responseTaken).rspreg = s.rspreg := rfl
@[simp] theorem State.responseTaken_pins (s : State) :
    (s.responseTaken).pins = s.pins := rfl
@[simp] theorem State.responseTaken_accepted (s : State) :
    (s.responseTaken).accepted = s.accepted := rfl

/-! ### `State.pushByte` -/

@[simp] theorem State.pushByte_config (s : State) (b : Byte) :
    (s.pushByte b).config = s.config := rfl
@[simp] theorem State.pushByte_freq (s : State) (b : Byte) :
    (s.pushByte b).freq = s.freq := rfl
@[simp] theorem State.pushByte_tvalid (s : State) (b : Byte) :
    (s.pushByte b).tvalid = s.tvalid := rfl
@[simp] theorem State.pushByte_nsym (s : State) (b : Byte) :
    (s.pushByte b).nsym = s.nsym := rfl
@[simp] theorem State.pushByte_root (s : State) (b : Byte) :
    (s.pushByte b).root = s.root := rfl
@[simp] theorem State.pushByte_node (s : State) (b : Byte) :
    (s.pushByte b).node = s.node := rfl
@[simp] theorem State.pushByte_code (s : State) (b : Byte) :
    (s.pushByte b).code = s.code := rfl
@[simp] theorem State.pushByte_byteBuf (s : State) (b : Byte) :
    (s.pushByte b).byteBuf = s.byteBuf ++ [b] := rfl
@[simp] theorem State.pushByte_bitBuf (s : State) (b : Byte) :
    (s.pushByte b).bitBuf = s.bitBuf := rfl
@[simp] theorem State.pushByte_phase (s : State) (b : Byte) :
    (s.pushByte b).phase = s.phase := rfl
@[simp] theorem State.pushByte_rspreg (s : State) (b : Byte) :
    (s.pushByte b).rspreg = s.rspreg := rfl
@[simp] theorem State.pushByte_pins (s : State) (b : Byte) :
    (s.pushByte b).pins = s.pins := rfl
@[simp] theorem State.pushByte_accepted (s : State) (b : Byte) :
    (s.pushByte b).accepted = s.accepted := rfl

/-! ### `State.pushBit` -/

@[simp] theorem State.pushBit_config (s : State) (v : Bool) :
    (s.pushBit v).config = s.config := rfl
@[simp] theorem State.pushBit_freq (s : State) (v : Bool) :
    (s.pushBit v).freq = s.freq := rfl
@[simp] theorem State.pushBit_tvalid (s : State) (v : Bool) :
    (s.pushBit v).tvalid = s.tvalid := rfl
@[simp] theorem State.pushBit_nsym (s : State) (v : Bool) :
    (s.pushBit v).nsym = s.nsym := rfl
@[simp] theorem State.pushBit_root (s : State) (v : Bool) :
    (s.pushBit v).root = s.root := rfl
@[simp] theorem State.pushBit_node (s : State) (v : Bool) :
    (s.pushBit v).node = s.node := rfl
@[simp] theorem State.pushBit_code (s : State) (v : Bool) :
    (s.pushBit v).code = s.code := rfl
@[simp] theorem State.pushBit_byteBuf (s : State) (v : Bool) :
    (s.pushBit v).byteBuf = s.byteBuf := rfl
@[simp] theorem State.pushBit_bitBuf (s : State) (v : Bool) :
    (s.pushBit v).bitBuf = s.bitBuf ++ [v] := rfl
@[simp] theorem State.pushBit_phase (s : State) (v : Bool) :
    (s.pushBit v).phase = s.phase := rfl
@[simp] theorem State.pushBit_rspreg (s : State) (v : Bool) :
    (s.pushBit v).rspreg = s.rspreg := rfl
@[simp] theorem State.pushBit_pins (s : State) (v : Bool) :
    (s.pushBit v).pins = s.pins := rfl
@[simp] theorem State.pushBit_accepted (s : State) (v : Bool) :
    (s.pushBit v).accepted = s.accepted := rfl

/-! ### `State.putBytes` -/

@[simp] theorem State.putBytes_config (s : State) (l : List Byte) :
    (s.putBytes l).config = s.config := rfl
@[simp] theorem State.putBytes_freq (s : State) (l : List Byte) :
    (s.putBytes l).freq = s.freq := rfl
@[simp] theorem State.putBytes_tvalid (s : State) (l : List Byte) :
    (s.putBytes l).tvalid = s.tvalid := rfl
@[simp] theorem State.putBytes_nsym (s : State) (l : List Byte) :
    (s.putBytes l).nsym = s.nsym := rfl
@[simp] theorem State.putBytes_root (s : State) (l : List Byte) :
    (s.putBytes l).root = s.root := rfl
@[simp] theorem State.putBytes_node (s : State) (l : List Byte) :
    (s.putBytes l).node = s.node := rfl
@[simp] theorem State.putBytes_code (s : State) (l : List Byte) :
    (s.putBytes l).code = s.code := rfl
@[simp] theorem State.putBytes_byteBuf (s : State) (l : List Byte) :
    (s.putBytes l).byteBuf = l := rfl
@[simp] theorem State.putBytes_bitBuf (s : State) (l : List Byte) :
    (s.putBytes l).bitBuf = s.bitBuf := rfl
@[simp] theorem State.putBytes_phase (s : State) (l : List Byte) :
    (s.putBytes l).phase = s.phase := rfl
@[simp] theorem State.putBytes_rspreg (s : State) (l : List Byte) :
    (s.putBytes l).rspreg = s.rspreg := rfl
@[simp] theorem State.putBytes_pins (s : State) (l : List Byte) :
    (s.putBytes l).pins = s.pins := rfl
@[simp] theorem State.putBytes_accepted (s : State) (l : List Byte) :
    (s.putBytes l).accepted = s.accepted := rfl

/-! ### `State.putBits` -/

@[simp] theorem State.putBits_config (s : State) (l : BitSeq) :
    (s.putBits l).config = s.config := rfl
@[simp] theorem State.putBits_freq (s : State) (l : BitSeq) :
    (s.putBits l).freq = s.freq := rfl
@[simp] theorem State.putBits_tvalid (s : State) (l : BitSeq) :
    (s.putBits l).tvalid = s.tvalid := rfl
@[simp] theorem State.putBits_nsym (s : State) (l : BitSeq) :
    (s.putBits l).nsym = s.nsym := rfl
@[simp] theorem State.putBits_root (s : State) (l : BitSeq) :
    (s.putBits l).root = s.root := rfl
@[simp] theorem State.putBits_node (s : State) (l : BitSeq) :
    (s.putBits l).node = s.node := rfl
@[simp] theorem State.putBits_code (s : State) (l : BitSeq) :
    (s.putBits l).code = s.code := rfl
@[simp] theorem State.putBits_byteBuf (s : State) (l : BitSeq) :
    (s.putBits l).byteBuf = s.byteBuf := rfl
@[simp] theorem State.putBits_bitBuf (s : State) (l : BitSeq) :
    (s.putBits l).bitBuf = l := rfl
@[simp] theorem State.putBits_phase (s : State) (l : BitSeq) :
    (s.putBits l).phase = s.phase := rfl
@[simp] theorem State.putBits_rspreg (s : State) (l : BitSeq) :
    (s.putBits l).rspreg = s.rspreg := rfl
@[simp] theorem State.putBits_pins (s : State) (l : BitSeq) :
    (s.putBits l).pins = s.pins := rfl
@[simp] theorem State.putBits_accepted (s : State) (l : BitSeq) :
    (s.putBits l).accepted = s.accepted := rfl

/-! ### `State.setWeight` -/

@[simp] theorem State.setWeight_config (s : State) (x : Symbol) (w : Weight) :
    (s.setWeight x w).config = s.config := rfl
@[simp] theorem State.setWeight_freq (s : State) (x : Symbol) (w : Weight) :
    (s.setWeight x w).freq = Table.write s.freq x w := rfl
@[simp] theorem State.setWeight_tvalid (s : State) (x : Symbol) (w : Weight) :
    (s.setWeight x w).tvalid = s.tvalid := rfl
@[simp] theorem State.setWeight_nsym (s : State) (x : Symbol) (w : Weight) :
    (s.setWeight x w).nsym = s.nsym := rfl
@[simp] theorem State.setWeight_root (s : State) (x : Symbol) (w : Weight) :
    (s.setWeight x w).root = s.root := rfl
@[simp] theorem State.setWeight_node (s : State) (x : Symbol) (w : Weight) :
    (s.setWeight x w).node = s.node := rfl
@[simp] theorem State.setWeight_code (s : State) (x : Symbol) (w : Weight) :
    (s.setWeight x w).code = s.code := rfl
@[simp] theorem State.setWeight_byteBuf (s : State) (x : Symbol) (w : Weight) :
    (s.setWeight x w).byteBuf = s.byteBuf := rfl
@[simp] theorem State.setWeight_bitBuf (s : State) (x : Symbol) (w : Weight) :
    (s.setWeight x w).bitBuf = s.bitBuf := rfl
@[simp] theorem State.setWeight_phase (s : State) (x : Symbol) (w : Weight) :
    (s.setWeight x w).phase = s.phase := rfl
@[simp] theorem State.setWeight_rspreg (s : State) (x : Symbol) (w : Weight) :
    (s.setWeight x w).rspreg = s.rspreg := rfl
@[simp] theorem State.setWeight_pins (s : State) (x : Symbol) (w : Weight) :
    (s.setWeight x w).pins = s.pins := rfl
@[simp] theorem State.setWeight_accepted (s : State) (x : Symbol) (w : Weight) :
    (s.setWeight x w).accepted = s.accepted := rfl

/-! ### `State.commitTree` -/

@[simp] theorem State.commitTree_config (s : State) (n : List NodeEntry) (r : NodeRef) :
    (s.commitTree n r).config = s.config := rfl
@[simp] theorem State.commitTree_freq (s : State) (n : List NodeEntry) (r : NodeRef) :
    (s.commitTree n r).freq = s.freq := rfl
@[simp] theorem State.commitTree_tvalid (s : State) (n : List NodeEntry) (r : NodeRef) :
    (s.commitTree n r).tvalid = true := rfl
@[simp] theorem State.commitTree_nsym (s : State) (n : List NodeEntry) (r : NodeRef) :
    (s.commitTree n r).nsym = BitVec.ofNat 9 s.fcount := rfl
@[simp] theorem State.commitTree_root (s : State) (n : List NodeEntry) (r : NodeRef) :
    (s.commitTree n r).root = r := rfl
@[simp] theorem State.commitTree_node (s : State) (n : List NodeEntry) (r : NodeRef) :
    (s.commitTree n r).node = n := rfl
@[simp] theorem State.commitTree_code (s : State) (n : List NodeEntry) (r : NodeRef) :
    (s.commitTree n r).code = deriveCodes n r := rfl
@[simp] theorem State.commitTree_byteBuf (s : State) (n : List NodeEntry) (r : NodeRef) :
    (s.commitTree n r).byteBuf = s.byteBuf := rfl
@[simp] theorem State.commitTree_bitBuf (s : State) (n : List NodeEntry) (r : NodeRef) :
    (s.commitTree n r).bitBuf = s.bitBuf := rfl
@[simp] theorem State.commitTree_phase (s : State) (n : List NodeEntry) (r : NodeRef) :
    (s.commitTree n r).phase = s.phase := rfl
@[simp] theorem State.commitTree_rspreg (s : State) (n : List NodeEntry) (r : NodeRef) :
    (s.commitTree n r).rspreg = s.rspreg := rfl
@[simp] theorem State.commitTree_pins (s : State) (n : List NodeEntry) (r : NodeRef) :
    (s.commitTree n r).pins = s.pins := rfl
@[simp] theorem State.commitTree_accepted (s : State) (n : List NodeEntry) (r : NodeRef) :
    (s.commitTree n r).accepted = s.accepted := rfl

/-! ### `State.pinsUsed` -/

@[simp] theorem State.pinsUsed_config (s : State) :
    (s.pinsUsed).config = s.config := rfl
@[simp] theorem State.pinsUsed_freq (s : State) :
    (s.pinsUsed).freq = s.freq := rfl
@[simp] theorem State.pinsUsed_tvalid (s : State) :
    (s.pinsUsed).tvalid = s.tvalid := rfl
@[simp] theorem State.pinsUsed_nsym (s : State) :
    (s.pinsUsed).nsym = s.nsym := rfl
@[simp] theorem State.pinsUsed_root (s : State) :
    (s.pinsUsed).root = s.root := rfl
@[simp] theorem State.pinsUsed_node (s : State) :
    (s.pinsUsed).node = s.node := rfl
@[simp] theorem State.pinsUsed_code (s : State) :
    (s.pinsUsed).code = s.code := rfl
@[simp] theorem State.pinsUsed_byteBuf (s : State) :
    (s.pinsUsed).byteBuf = s.byteBuf := rfl
@[simp] theorem State.pinsUsed_bitBuf (s : State) :
    (s.pinsUsed).bitBuf = s.bitBuf := rfl
@[simp] theorem State.pinsUsed_phase (s : State) :
    (s.pinsUsed).phase = s.phase := rfl
@[simp] theorem State.pinsUsed_rspreg (s : State) :
    (s.pinsUsed).rspreg = s.rspreg := rfl
@[simp] theorem State.pinsUsed_pins (s : State) :
    (s.pinsUsed).pins = s.pins.tail := rfl
@[simp] theorem State.pinsUsed_accepted (s : State) :
    (s.pinsUsed).accepted = s.accepted := rfl

/-! ### `State.resetEdge` -/

@[simp] theorem State.resetEdge_config (s : State) :
    (s.resetEdge).config = s.config := rfl
@[simp] theorem State.resetEdge_freq (s : State) :
    (s.resetEdge).freq = [] := rfl
@[simp] theorem State.resetEdge_tvalid (s : State) :
    (s.resetEdge).tvalid = false := rfl
@[simp] theorem State.resetEdge_nsym (s : State) :
    (s.resetEdge).nsym = 0 := rfl
@[simp] theorem State.resetEdge_root (s : State) :
    (s.resetEdge).root = 0 := rfl
@[simp] theorem State.resetEdge_node (s : State) :
    (s.resetEdge).node = [] := rfl
@[simp] theorem State.resetEdge_code (s : State) :
    (s.resetEdge).code = [] := rfl
@[simp] theorem State.resetEdge_byteBuf (s : State) :
    (s.resetEdge).byteBuf = [] := rfl
@[simp] theorem State.resetEdge_bitBuf (s : State) :
    (s.resetEdge).bitBuf = [] := rfl
@[simp] theorem State.resetEdge_phase (s : State) :
    (s.resetEdge).phase = .idle := rfl
@[simp] theorem State.resetEdge_rspreg (s : State) :
    (s.resetEdge).rspreg = 0 := rfl
@[simp] theorem State.resetEdge_pins (s : State) :
    (s.resetEdge).pins = s.pins := rfl
@[simp] theorem State.resetEdge_accepted (s : State) :
    (s.resetEdge).accepted = s.accepted := rfl

/-! ### `State.acceptCommand` -/

@[simp] theorem State.acceptCommand_config (s : State) (w : CmdWord) :
    (s.acceptCommand w).config = s.config := rfl
@[simp] theorem State.acceptCommand_freq (s : State) (w : CmdWord) :
    (s.acceptCommand w).freq = s.freq := rfl
@[simp] theorem State.acceptCommand_tvalid (s : State) (w : CmdWord) :
    (s.acceptCommand w).tvalid = s.tvalid := rfl
@[simp] theorem State.acceptCommand_nsym (s : State) (w : CmdWord) :
    (s.acceptCommand w).nsym = s.nsym := rfl
@[simp] theorem State.acceptCommand_root (s : State) (w : CmdWord) :
    (s.acceptCommand w).root = s.root := rfl
@[simp] theorem State.acceptCommand_node (s : State) (w : CmdWord) :
    (s.acceptCommand w).node = s.node := rfl
@[simp] theorem State.acceptCommand_code (s : State) (w : CmdWord) :
    (s.acceptCommand w).code = s.code := rfl
@[simp] theorem State.acceptCommand_byteBuf (s : State) (w : CmdWord) :
    (s.acceptCommand w).byteBuf = s.byteBuf := rfl
@[simp] theorem State.acceptCommand_bitBuf (s : State) (w : CmdWord) :
    (s.acceptCommand w).bitBuf = s.bitBuf := rfl
@[simp] theorem State.acceptCommand_phase (s : State) (w : CmdWord) :
    (s.acceptCommand w).phase = .busy w (Config.busyEdges s.accepted) := rfl
@[simp] theorem State.acceptCommand_rspreg (s : State) (w : CmdWord) :
    (s.acceptCommand w).rspreg = s.rspreg := rfl
@[simp] theorem State.acceptCommand_pins (s : State) (w : CmdWord) :
    (s.acceptCommand w).pins = s.pins := rfl
@[simp] theorem State.acceptCommand_accepted (s : State) (w : CmdWord) :
    (s.acceptCommand w).accepted = s.accepted + 1 := rfl

/-! ### `State.stayBusy` -/

@[simp] theorem State.stayBusy_config (s : State) (w : CmdWord) (n : Nat) :
    (s.stayBusy w n).config = s.config := rfl
@[simp] theorem State.stayBusy_freq (s : State) (w : CmdWord) (n : Nat) :
    (s.stayBusy w n).freq = s.freq := rfl
@[simp] theorem State.stayBusy_tvalid (s : State) (w : CmdWord) (n : Nat) :
    (s.stayBusy w n).tvalid = s.tvalid := rfl
@[simp] theorem State.stayBusy_nsym (s : State) (w : CmdWord) (n : Nat) :
    (s.stayBusy w n).nsym = s.nsym := rfl
@[simp] theorem State.stayBusy_root (s : State) (w : CmdWord) (n : Nat) :
    (s.stayBusy w n).root = s.root := rfl
@[simp] theorem State.stayBusy_node (s : State) (w : CmdWord) (n : Nat) :
    (s.stayBusy w n).node = s.node := rfl
@[simp] theorem State.stayBusy_code (s : State) (w : CmdWord) (n : Nat) :
    (s.stayBusy w n).code = s.code := rfl
@[simp] theorem State.stayBusy_byteBuf (s : State) (w : CmdWord) (n : Nat) :
    (s.stayBusy w n).byteBuf = s.byteBuf := rfl
@[simp] theorem State.stayBusy_bitBuf (s : State) (w : CmdWord) (n : Nat) :
    (s.stayBusy w n).bitBuf = s.bitBuf := rfl
@[simp] theorem State.stayBusy_phase (s : State) (w : CmdWord) (n : Nat) :
    (s.stayBusy w n).phase = .busy w n := rfl
@[simp] theorem State.stayBusy_rspreg (s : State) (w : CmdWord) (n : Nat) :
    (s.stayBusy w n).rspreg = s.rspreg := rfl
@[simp] theorem State.stayBusy_pins (s : State) (w : CmdWord) (n : Nat) :
    (s.stayBusy w n).pins = s.pins := rfl
@[simp] theorem State.stayBusy_accepted (s : State) (w : CmdWord) (n : Nat) :
    (s.stayBusy w n).accepted = s.accepted := rfl

/-! ### `State.presentCommand` -/

@[simp] theorem State.presentCommand_config (s : State) (w : CmdWord) :
    (s.presentCommand w).config = s.config := rfl
@[simp] theorem State.presentCommand_freq (s : State) (w : CmdWord) :
    (s.presentCommand w).freq = s.freq := rfl
@[simp] theorem State.presentCommand_tvalid (s : State) (w : CmdWord) :
    (s.presentCommand w).tvalid = s.tvalid := rfl
@[simp] theorem State.presentCommand_nsym (s : State) (w : CmdWord) :
    (s.presentCommand w).nsym = s.nsym := rfl
@[simp] theorem State.presentCommand_root (s : State) (w : CmdWord) :
    (s.presentCommand w).root = s.root := rfl
@[simp] theorem State.presentCommand_node (s : State) (w : CmdWord) :
    (s.presentCommand w).node = s.node := rfl
@[simp] theorem State.presentCommand_code (s : State) (w : CmdWord) :
    (s.presentCommand w).code = s.code := rfl
@[simp] theorem State.presentCommand_byteBuf (s : State) (w : CmdWord) :
    (s.presentCommand w).byteBuf = s.byteBuf := rfl
@[simp] theorem State.presentCommand_bitBuf (s : State) (w : CmdWord) :
    (s.presentCommand w).bitBuf = s.bitBuf := rfl
@[simp] theorem State.presentCommand_phase (s : State) (w : CmdWord) :
    (s.presentCommand w).phase = .busy w 0 := rfl
@[simp] theorem State.presentCommand_rspreg (s : State) (w : CmdWord) :
    (s.presentCommand w).rspreg = s.rspreg := rfl
@[simp] theorem State.presentCommand_pins (s : State) (w : CmdWord) :
    (s.presentCommand w).pins = quietPins :: s.pins := rfl
@[simp] theorem State.presentCommand_accepted (s : State) (w : CmdWord) :
    (s.presentCommand w).accepted = s.accepted := rfl

/-! ### Observations after a response -/

@[simp] theorem State.withResponse_bytelen (s : State) (w : RspWord) : (s.withResponse w).bytelen = s.bytelen := rfl
@[simp] theorem State.withResponse_bitlen (s : State) (w : RspWord) : (s.withResponse w).bitlen = s.bitlen := rfl
@[simp] theorem State.withResponse_fcount (s : State) (w : RspWord) : (s.withResponse w).fcount = s.fcount := rfl
@[simp] theorem State.withResponse_nint (s : State) (w : RspWord) : (s.withResponse w).nint = s.nint := rfl
@[simp] theorem State.withResponse_present (s : State) (w : RspWord) (x : Symbol) :
    (s.withResponse w).present x = s.present x := rfl
@[simp] theorem State.withResponse_weight (s : State) (w : RspWord) (x : Symbol) :
    (s.withResponse w).weight x = s.weight x := rfl
@[simp] theorem State.withResponse_codeValid (s : State) (w : RspWord) (x : Symbol) :
    (s.withResponse w).codeValid x = s.codeValid x := rfl
@[simp] theorem State.withResponse_codeLength (s : State) (w : RspWord) (x : Symbol) :
    (s.withResponse w).codeLength x = s.codeLength x := rfl
@[simp] theorem State.withResponse_presentCount (s : State) (w : RspWord) :
    (s.withResponse w).presentCount = s.presentCount := rfl
@[simp] theorem State.withResponse_rspValid (s : State) (w : RspWord) :
    (s.withResponse w).rspValid = true := rfl

/-- A second response replaces the first. -/
@[simp] theorem State.withResponse_withResponse (s : State) (v w : RspWord) :
    (s.withResponse v).withResponse w = s.withResponse w := rfl

end Sys2Proof.Machine
end

