-- ==== Sys2Proof/Laws/Words.lean ====
section
/-! SUPPORT. Command and response words: the fields of a word determine it and are determined by it
(30_encoding.md R60, R61), and the result forms of 30_encoding.md R61. -/

namespace Sys2Proof

theorem word_toNat (x y : BitVec 8) (z : BitVec 32) :
    (x ++ y ++ z : BitVec (8 + 8 + 32)).toNat = x.toNat * 2 ^ 40 + y.toNat * 2 ^ 32 + z.toNat := by
  have hy := y.isLt
  have hz := z.isLt
  rw [BitVec.toNat_append, BitVec.toNat_append, ← Nat.shiftLeft_add_eq_or_of_lt hz,
    ← Nat.shiftLeft_add_eq_or_of_lt hy]
  simp only [Nat.shiftLeft_eq]
  omega

theorem extract_toNat (w : BitVec 48) (i n : Nat) :
    (w.extractLsb' i n).toNat = w.toNat / 2 ^ i % 2 ^ n := by
  simp [BitVec.extractLsb'_toNat, Nat.shiftRight_eq_div_pow]

theorem extract_op (x y : BitVec 8) (z : BitVec 32) :
    (x ++ y ++ z : BitVec 48).extractLsb' 40 8 = x := by
  apply BitVec.eq_of_toNat_eq
  have := x.isLt; have := y.isLt; have := z.isLt
  rw [extract_toNat, word_toNat]
  omega

theorem extract_a (x y : BitVec 8) (z : BitVec 32) :
    (x ++ y ++ z : BitVec 48).extractLsb' 32 8 = y := by
  apply BitVec.eq_of_toNat_eq
  have := x.isLt; have := y.isLt; have := z.isLt
  rw [extract_toNat, word_toNat]
  omega

theorem extract_d (x y : BitVec 8) (z : BitVec 32) :
    (x ++ y ++ z : BitVec 48).extractLsb' 0 32 = z := by
  apply BitVec.eq_of_toNat_eq
  have := x.isLt; have := y.isLt; have := z.isLt
  rw [extract_toNat, word_toNat]
  omega

/-- The fields of the word with given fields. -/
@[simp] theorem fieldsOf_wordOf (f : Fields) : fieldsOf (wordOf f) = f := by
  simp only [fieldsOf, wordOf, extract_op, extract_a, extract_d]

/-- The word with the fields of a word. -/
@[simp] theorem wordOf_fieldsOf (w : CmdWord) : wordOf (fieldsOf w) = w := by
  apply BitVec.eq_of_toNat_eq
  have := w.isLt
  simp only [wordOf, fieldsOf]
  rw [word_toNat, extract_toNat, extract_toNat, extract_toNat]
  omega

namespace Machine

@[simp] theorem fieldsOf_responseWord (st a : BitVec 8) (d : BitVec 32) :
    fieldsOf (responseWord st a d) = { op := st, a := a, d := d } :=
  fieldsOf_wordOf { op := st, a := a, d := d }

@[simp] theorem status_withResponse (s : State) (st a : BitVec 8) (d : BitVec 32) :
    (s.withResponse (responseWord st a d)).status = st := by
  simp [State.status]

/-- An error's code is one of 0x01 to 0x08. -/
theorem Error.code_range (e : Error) : e.code ≠ 0x00 ∧ e.code.toNat ≤ 8 := by
  cases e <;> decide

theorem nodeResult_toNat (e : NodeEntry) :
    (nodeResult e).toNat = e.left.toNat * 2 ^ 16 + e.right.toNat := by
  have hl := e.left.isLt
  have hr := e.right.isLt
  show (0#7 ++ e.left ++ (0#7 ++ e.right) : BitVec ((7 + 9) + (7 + 9))).toNat = _
  have h : (0#7 ++ e.right : BitVec (7 + 9)).toNat = e.right.toNat := by
    rw [BitVec.toNat_append]; simp
  have h' : (0#7 ++ e.left : BitVec (7 + 9)).toNat = e.left.toNat := by
    rw [BitVec.toNat_append]; simp
  rw [BitVec.toNat_append, ← Nat.shiftLeft_add_eq_or_of_lt (by rw [h]; omega), h, h',
    Nat.shiftLeft_eq]

theorem bitResult_eq (v : Bool) : bitResult v = if v then 1 else 0 := by cases v <;> decide

end Machine

end Sys2Proof
end

