-- ==== Sys2Proof/Laws/Decode.lean ====
section
/-! SUPPORT. The forms of the decoder's rows: when a row accepts the fields and what it reads from
them (30_encoding.md R62, R63), and why a row refuses (R64). -/

namespace Sys2Proof

theorem noOperand_ok {f : Fields} {i j : Instr} :
    noOperand f i = .ok j ↔ f.a = 0 ∧ f.d = 0 ∧ j = i := by
  unfold noOperand
  rw [@eq_comm _ j i]
  split
  · simp_all
  · split <;> simp_all

theorem operandD_ok {f : Fields} {i : BitVec 32 → Instr} {j : Instr} :
    operandD f i = .ok j ↔ f.a = 0 ∧ j = i f.d := by
  unfold operandD
  rw [@eq_comm _ j]
  split <;> simp_all

theorem operandA_ok {f : Fields} {i : BitVec 8 → Instr} {j : Instr} :
    operandA f i = .ok j ↔ f.d = 0 ∧ j = i f.a := by
  unfold operandA
  rw [@eq_comm _ j]
  split <;> simp_all

/-- A field below 2 is one bit, zero-extended. -/
theorem bitField_bit : ∀ a : BitVec 8, a.toNat < 2 → bitField (a.getLsbD 0) = a := by decide

@[simp] theorem bit_bitField (v : Bool) : (bitField v).getLsbD 0 = v := by cases v <;> decide

theorem bitField_lt (v : Bool) : (bitField v).toNat < 2 := by cases v <;> decide

theorem operandBit_ok {f : Fields} {bad : Illegal} {i : Bool → Instr} {j : Instr} :
    operandBit f bad i = .ok j ↔ ∃ v, f.a = bitField v ∧ f.d = 0 ∧ j = i v := by
  unfold operandBit
  split
  · rename_i h
    refine ⟨fun h' => Except.noConfusion rfl rfl (heq_of_eq h'), ?_⟩
    rintro ⟨v, hv, -⟩
    have := bitField_lt v
    rw [← hv] at this
    omega
  · rename_i h
    have hb := bitField_bit f.a (by omega)
    split
    · simp_all
    · rename_i hd
      refine ⟨fun h' => ⟨f.a.getLsbD 0, hb.symm, by simpa using hd, (Except.ok.inj h').symm⟩, ?_⟩
      rintro ⟨v, hv, -, rfl⟩
      rw [hv, bit_bitField]

theorem noOperand_error {f : Fields} {i : Instr} :
    (∃ e, noOperand f i = .error e) ↔ ¬ (f.a = 0 ∧ f.d = 0) := by
  unfold noOperand
  split
  · simp_all
  · split <;> simp_all

theorem operandD_error {f : Fields} {i : BitVec 32 → Instr} :
    (∃ e, operandD f i = .error e) ↔ f.a ≠ 0 := by
  unfold operandD
  split <;> simp_all

theorem operandA_error {f : Fields} {i : BitVec 8 → Instr} :
    (∃ e, operandA f i = .error e) ↔ f.d ≠ 0 := by
  unfold operandA
  split <;> simp_all

theorem operandBit_error {f : Fields} {bad : Illegal} {i : Bool → Instr} :
    (∃ e, operandBit f bad i = .error e) ↔ ¬ (f.a.toNat < 2 ∧ f.d = 0) := by
  unfold operandBit
  split
  · rename_i h
    simp [Nat.not_lt.2 h]
  · split <;> simp_all

/-- Everything the decoder accepts: the fields it reads are those of the command. -/
theorem decodeFields_ok {f : Fields} {i : Instr} (h : decodeFields f = .ok i) : i.fields = f := by
  unfold decodeFields at h
  iterate 18
    rcases ite_eq_iff.1 h with ⟨hc, h⟩ | ⟨-, h⟩
    on_goal 1 =>
      obtain ⟨op, a, d⟩ := f
      dsimp only at hc
      subst hc
      first
        | (obtain ⟨h1, h2, rfl⟩ := noOperand_ok.1 h; dsimp only at h1 h2; subst h1 h2; rfl)
        | (obtain ⟨h1, rfl⟩ := operandD_ok.1 h; dsimp only at h1; subst h1; rfl)
        | (obtain ⟨h1, rfl⟩ := operandA_ok.1 h; dsimp only at h1; subst h1; rfl)
        | (obtain ⟨v, h1, h2, rfl⟩ := operandBit_ok.1 h
           dsimp only at h1 h2; subst h1 h2; cases v <;> rfl)
        | (cases h; rfl)
  cases h

/-! ### Rows of the table -/

theorem fieldsOf_inj {w v : CmdWord} : fieldsOf w = fieldsOf v ↔ w = v :=
  ⟨fun h => by rw [← wordOf_fieldsOf w, h, wordOf_fieldsOf], fun h => h ▸ rfl⟩

theorem fieldsOf_and (w m : CmdWord) : fieldsOf (w &&& m) =
    ⟨(fieldsOf w).op &&& (fieldsOf m).op, (fieldsOf w).a &&& (fieldsOf m).a,
      (fieldsOf w).d &&& (fieldsOf m).d⟩ := by
  have h : ∀ i n, (w &&& m).extractLsb' i n = w.extractLsb' i n &&& m.extractLsb' i n := by
    intro i n
    ext j hj
    simp
  simp only [fieldsOf, h]

/-- A row covers a word field by field. -/
theorem covers_iff (r : OpcodeRow) (w : CmdWord) : r.covers w = true ↔
    (fieldsOf w).op &&& (fieldsOf r.mask).op = (fieldsOf r.pattern).op ∧
      (fieldsOf w).a &&& (fieldsOf r.mask).a = (fieldsOf r.pattern).a ∧
      (fieldsOf w).d &&& (fieldsOf r.mask).d = (fieldsOf r.pattern).d := by
  rw [OpcodeRow.covers, beq_iff_eq, ← fieldsOf_inj, fieldsOf_and]
  cases fieldsOf r.pattern
  simp

end Sys2Proof
end

