-- ==== Sys2Proof/Laws/Decoder.lean ====
section
/-! SUPPORT. The loop of DECODE and DECODES, once: what it does along a path that stays inside the
tree, along the code of a symbol, along a sequence of codes, and at the end of the bits
(44_decoder.md R140, R144 to R149). -/

namespace Sys2Proof.Machine

section
variable {nodes : List NodeEntry} {root : NodeRef} {m : DecodeMode}

/-- One iteration with a bit left (44_decoder.md R140 lines 6 to 9). -/
theorem decodeLoop_cons (n : Nat) (b : Bool) (bits : BitSeq) (c : Cursor) :
    decodeLoop nodes root m (n + 1) (b :: bits) c =
      if isLeaf (descend nodes c.cur b) = true
      then decodeLoop nodes root m n bits (c.emit root (descend nodes c.cur b))
      else decodeLoop nodes root m n bits (c.advance (descend nodes c.cur b)) := by
  simp [decodeLoop]

theorem descend_int {r : NodeRef} (h : isInt r = true) (b : Bool) :
    descend nodes r b = child nodes r b := if_pos h

theorem descend_leaf {r : NodeRef} (h : isLeaf r = true) (b : Bool) : descend nodes r b = r :=
  if_neg (by simpa [isLeaf] using h)

/-- Along a path to an internal node the loop only moves the cursor. -/
theorem decodeLoop_path {r t : NodeRef} {p : BitSeq} (hf : follow nodes r p = some t)
    (ht : isInt t = true) (n i start : Nat) (q : BitSeq) (out : List Symbol) :
    decodeLoop nodes root m (n + p.length) (p ++ q) ⟨r, i, start, out⟩ =
      decodeLoop nodes root m n q ⟨t, i + p.length, start, out⟩ := by
  induction p generalizing r i with
  | nil => cases hf; rfl
  | cons b p ih =>
    obtain ⟨hi, hc⟩ := follow_cons_some hf
    have hci : isInt (child nodes r b) = true := by
      cases p with
      | nil => cases hc; exact ht
      | cons b' p => exact (follow_cons_some hc).1
    rw [List.length_cons, ← Nat.add_assoc, List.cons_append, decodeLoop_cons]
    simp only [descend_int hi]
    rw [if_neg (by simp [isLeaf, hci]), Cursor.advance, ih hc]
    congr 2
    exact Nat.add_right_comm i 1 p.length

/-- Along the path to a leaf the loop emits its symbol and goes back to the root. -/
theorem decodeLoop_code {r t : NodeRef} {p : BitSeq} (hi : isInt r = true)
    (hf : follow nodes r p = some t) (ht : isLeaf t = true)
    (n i start : Nat) (q : BitSeq) (out : List Symbol) :
    decodeLoop nodes root m (n + p.length) (p ++ q) ⟨r, i, start, out⟩ =
      decodeLoop nodes root m n q ⟨root, i + p.length, i + p.length, out ++ [sym t]⟩ := by
  rcases List.eq_nil_or_concat p with rfl | ⟨p, b, rfl⟩
  · cases hf; rw [← isLeaf_eq_false, ht] at hi; cases hi
  · rw [List.concat_eq_append] at hf ⊢
    obtain ⟨u, hu, hui, rfl⟩ := follow_concat hf
    rw [List.length_append, List.length_singleton, ← Nat.add_assoc, Nat.add_right_comm,
      List.append_assoc, decodeLoop_path hu hui, List.singleton_append, decodeLoop_cons]
    simp only [descend_int hui]
    rw [if_pos ht]
    rfl

/-- At the end of the bits, at the root, the loop ends. -/
theorem decodeLoop_end (n i start : Nat) (out : List Symbol) :
    decodeLoop nodes root m (n + 1) [] ⟨root, i, start, out⟩ = .done out := by
  simp [decodeLoop]

/-- At the end of the bits, away from the root, strict mode is an error (44_decoder.md R147). -/
theorem decodeLoop_strict {r : NodeRef} (hr : r ≠ root) (n i start : Nat) (out : List Symbol) :
    decodeLoop nodes root .strict (n + 1) [] ⟨r, i, start, out⟩ = .incomplete start := by
  simp [decodeLoop, hr]

/-- At the end of the bits, away from the root, flush mode goes on with 0 bits to a leaf
(44_decoder.md R146). -/
theorem decodeLoop_flush {r t : NodeRef} {k : Nat} (hi : isInt r = true) (hr : r ≠ root)
    (hc : ∀ u, isInt u = true → ∀ p, follow nodes r p = some u → child nodes u false ≠ root)
    (hf : follow nodes r (List.replicate (k + 1) false) = some t) (ht : isLeaf t = true)
    (n i start : Nat) (out : List Symbol) :
    decodeLoop nodes root .flush (n + (k + 1)) [] ⟨r, i, start, out⟩ = .done (out ++ [sym t]) := by
  induction k generalizing r i with
  | zero =>
    have ht' : child nodes r false = t := by simpa [follow_cons, hi] using hf
    subst ht'
    simp [decodeLoop, hr, descend_int hi, ht]
  | succ k ih =>
    rw [List.replicate_succ] at hf
    obtain ⟨-, hf⟩ := follow_cons_some hf
    have hci : isInt (child nodes r false) = true := by
      rw [List.replicate_succ] at hf; exact (follow_cons_some hf).1
    have hl : isLeaf (child nodes r false) = false := isLeaf_eq_false.2 hci
    have hne := hc r hi [] rfl
    rw [← ih hci hne (fun u hu p hp => hc u hu (false :: p) (by rw [follow_cons, if_pos hi, hp])) hf
      (i + 1), ← Nat.add_assoc n (k + 1) 1]
    rw [decodeLoop]
    simp [hr, descend_int hi, hl, Cursor.advance]

/-- On a lone leaf every bit gives the symbol (44_decoder.md R148). -/
theorem decodeLoop_leaf (hl : isLeaf root = true) (n i start : Nat) (bits : BitSeq)
    (out : List Symbol) :
    decodeLoop nodes root m (n + 1 + bits.length) bits ⟨root, i, start, out⟩ =
      .done (out ++ List.replicate bits.length (sym root)) := by
  induction bits generalizing i start out with
  | nil => simpa using decodeLoop_end n i start out
  | cons b bits ih =>
    rw [List.length_cons, ← Nat.add_assoc, decodeLoop_cons]
    simp only [descend_leaf hl]
    rw [if_pos hl, Cursor.emit, ih, List.replicate_succ]
    simp

end

/-! ### On a state with a tree of two or more leaves -/

section
variable {s : State} {m : DecodeMode}

/-- Along a sequence of codes the loop emits the symbols. -/
theorem TreeInv.decodeLoop_codes (h : TreeInv s) (hw : Table.wf s.code) (h2 : 2 ≤ s.nsym.toNat)
    {symbols : List Symbol} {codes : List BitSeq} (hc : CodesOf s symbols codes)
    (n i : Nat) (q : BitSeq) (out : List Symbol) :
    decodeLoop s.node s.root m (n + codes.flatten.length) (codes.flatten ++ q)
        ⟨s.root, i, i, out⟩ =
      decodeLoop s.node s.root m n q
        ⟨s.root, i + codes.flatten.length, i + codes.flatten.length, out ++ symbols⟩ := by
  induction symbols generalizing codes i out with
  | nil =>
    obtain rfl : codes = [] := by simpa [CodesOf] using hc.symm
    simp
  | cons x symbols ih =>
    cases codes with
    | nil => simp [CodesOf] at hc
    | cons p codes =>
      obtain ⟨hx, hc⟩ := List.cons.inj hc
      have hp := (h.read_code hw h2).1 hx
      have := decodeLoop_code (root := s.root) (m := m) (h.root_int h2) hp (by simp)
        (n + codes.flatten.length) i i (codes.flatten ++ q) out
      rw [List.flatten_cons, List.length_append, List.append_assoc,
        show n + (p.length + codes.flatten.length) = n + codes.flatten.length + p.length by omega,
        this, ih hc, sym_leafref]
      simp [Nat.add_assoc]

/-- A proper prefix of a code leads to an internal node. -/
theorem TreeInv.tail_int (h : TreeInv s) (hw : Table.wf s.code) (h2 : 2 ≤ s.nsym.toNat)
    {x : Symbol} {p tail : BitSeq} (hx : Table.read s.code x = some p) (hp : tail <+: p)
    (hne : tail ≠ p) : ∃ t, follow s.node s.root tail = some t ∧ isInt t = true := by
  obtain ⟨q, rfl⟩ := hp
  have hf := (h.read_code hw h2).1 hx
  rw [follow_append] at hf
  obtain ⟨t, ht, hq⟩ := Option.bind_eq_some_iff.1 hf
  cases q with
  | nil => simp at hne
  | cons b q => exact ⟨t, ht, (follow_cons_some hq).1⟩

/-- A path from the root to an internal node is a proper prefix of a code, which goes on with 0 bits
(42_codebook.md R125). -/
theorem TreeInv.int_tail (h : TreeInv s) (hw : Table.wf s.code) (h2 : 2 ≤ s.nsym.toNat)
    {t : NodeRef} {tail : BitSeq} (hf : follow s.node s.root tail = some t) (ht : isInt t = true) :
    ∃ z k, k ≤ idx t ∧ Table.read s.code z = some (tail ++ List.replicate (k + 1) false) ∧
      follow s.node t (List.replicate (k + 1) false) = some (leafref z) := by
  obtain ⟨k, l, hk, hl, hleaf⟩ := h.arena.left_leaf (h.arena.follow_inside h.root_inside hf) ht
  refine ⟨sym l, k, hk, (h.read_code hw h2).2 ?_, ?_⟩
  · rw [follow_append, hf, Option.bind_some, hl, leafref_sym hleaf]
  · rw [hl, leafref_sym hleaf]

/-- A path of at least one edge does not come back to the root. -/
theorem TreeInv.follow_ne_root (h : TreeInv s) {p : BitSeq} {t : NodeRef}
    (hf : follow s.node s.root p = some t) (hp : p ≠ []) : t ≠ s.root := by
  rintro rfl
  exact hp (h.arena.follow_inj h.root_inside hf rfl)

/-- What the decoder returns on a sequence of codes followed by a proper prefix of a code, in either
mode (44_decoder.md R149). -/
theorem TreeInv.decodeBits_parse (h : TreeInv s) (hw : Table.wf s.code) (h2 : 2 ≤ s.nsym.toNat)
    {bits tail : BitSeq} {symbols : List Symbol} (hp : Parses s bits symbols tail) :
    (tail = [] → ∀ m, decodeBits s.node s.root m bits = .done symbols) ∧
    (tail ≠ [] →
      decodeBits s.node s.root .strict bits = .incomplete (bits.length - tail.length) ∧
      ∃ z n, Table.read s.code z = some (tail ++ List.replicate n false) ∧
        decodeBits s.node s.root .flush bits = .done (symbols ++ [z])) := by
  obtain ⟨⟨codes, hc, rfl⟩, x, p, hx, hpre, hne⟩ := hp
  obtain ⟨t, ht, hti⟩ := h.tail_int hw h2 hx hpre hne
  have run : ∀ m, decodeBits s.node s.root m (codes.flatten ++ tail) =
      decodeLoop s.node s.root m 255 []
        ⟨t, codes.flatten.length + tail.length, codes.flatten.length, symbols⟩ := by
    intro m
    have h1 := h.decodeLoop_codes (m := m) hw h2 hc (255 + tail.length) 0 tail []
    have h2 := decodeLoop_path (root := s.root) (m := m) ht hti 255 codes.flatten.length
      codes.flatten.length [] symbols
    rw [List.append_nil] at h2
    simp only [Nat.zero_add, List.nil_append] at h1
    rw [decodeBits, decodeBound, Cursor.initial, List.length_append, ← h2, ← h1]
    congr 1; omega
  constructor
  · rintro rfl m
    cases ht
    rw [run, decodeLoop_end]
  · intro htail
    have hroot := h.follow_ne_root ht htail
    refine ⟨?_, ?_⟩
    · rw [run, decodeLoop_strict hroot]
      simp
    · obtain ⟨z, k, hk, hz, hf⟩ := h.int_tail hw h2 ht hti
      have hin := h.arena.follow_inside h.root_inside ht
      have := h.arena.size
      have := hin hti
      have hfl := decodeLoop_flush hti hroot
        (fun u hu q hq => h.child_ne_root (h.arena.follow_inside hin hq hu) false) hf (by simp)
        (255 - (k + 1)) (codes.flatten.length + tail.length) codes.flatten.length symbols
      rw [sym_leafref, show 255 - (k + 1) + (k + 1) = 255 by omega] at hfl
      exact ⟨z, k + 1, hz, by rw [run, hfl]⟩

/-- Every bit sequence splits into codes and a proper prefix of a code. -/
theorem TreeInv.exists_parse (h : TreeInv s) (hw : Table.wf s.code) (h2 : 2 ≤ s.nsym.toNat)
    (bits : BitSeq) : ∃ symbols tail, Parses s bits symbols tail := by
  induction hn : bits.length using Nat.strongRecOn generalizing bits with
  | ind n ih =>
    subst hn
    rcases follow_splits (nodes := s.node) bits (h.root_int h2) with ⟨p, q, t, rfl, hp, hf, ht⟩ | ⟨t, hf, ht⟩
    · have hpos : 0 < p.length := List.length_pos_iff.2 hp
      obtain ⟨symbols, tail, ⟨codes, hc, rfl⟩, hx⟩ :=
        ih q.length (by simp; omega) q rfl
      refine ⟨sym t :: symbols, tail, ⟨p :: codes, ?_, by simp⟩, hx⟩
      have : Table.read s.code (sym t) = some p := (h.read_code hw h2).2 (by rw [leafref_sym ht, hf])
      simp only [CodesOf, List.map_cons, this]
      rw [show symbols.map (Table.read s.code) = codes.map some from hc]
    · obtain ⟨z, k, -, hz, -⟩ := h.int_tail hw h2 hf ht
      exact ⟨[], bits, ⟨[], rfl, by simp⟩, z, _, hz, List.prefix_append _ _, by simp⟩

/-- The decoder never runs out of its bound on a tree (44_decoder.md R153). -/
theorem TreeInv.decodeBits_ne_unbounded (h : TreeInv s) (hw : Table.wf s.code) (m : DecodeMode)
    (bits : BitSeq) : decodeBits s.node s.root m bits ≠ .unbounded := by
  have := h.nsym_range
  by_cases h1 : s.nsym.toNat = 1
  · rw [decodeBits, decodeBound, show bits.length + 255 = 254 + 1 + bits.length by omega,
      Cursor.initial, decodeLoop_leaf (h.root_leaf h1)]
    exact nofun
  · have h2 : 2 ≤ s.nsym.toNat := by omega
    obtain ⟨symbols, tail, hp⟩ := h.exists_parse hw h2 bits
    obtain ⟨h0, h1⟩ := h.decodeBits_parse hw h2 hp
    by_cases ht : tail = []
    · rw [h0 ht]; exact nofun
    · obtain ⟨hs, z, n, -, hf⟩ := h1 ht
      cases m
      · rw [hf]; exact nofun
      · rw [hs]; exact nofun

/-- A sequence of symbols with codes has at most as many symbols as bits. -/
theorem TreeInv.codes_length (h : TreeInv s) (hw : Table.wf s.code) {symbols : List Symbol}
    {codes : List BitSeq} (hc : CodesOf s symbols codes) : symbols.length ≤ codes.flatten.length := by
  induction symbols generalizing codes with
  | nil => simp
  | cons x symbols ih =>
    cases codes with
    | nil => simp [CodesOf] at hc
    | cons p codes =>
      obtain ⟨hx, hc⟩ := List.cons.inj hc
      have := (h.code_length _ ((Table.read_eq_some hw).1 hx)).1
      have := ih hc
      simp at *
      omega

end

end Sys2Proof.Machine
end

