-- ==== Sys2Proof/Laws/Encoder.lean ====
section
/-! SUPPORT. The loop of ENCODE: it succeeds exactly with the concatenation of the codes, and fails
at the first byte that has none (43_encoder.md R130, R131). -/

namespace Sys2Proof.Machine

/-- The loop over bytes that all have codes. -/
theorem encodeLoop_of_codes {code : Table BitSeq} {bytes : List Byte} {codes : List BitSeq}
    (h : bytes.map (Table.read code) = codes.map some) (j : Nat) (acc : BitSeq) :
    encodeLoop code bytes j acc = .ok (acc ++ codes.flatten) := by
  induction bytes generalizing codes j acc with
  | nil =>
    cases codes with
    | nil => simp [encodeLoop]
    | cons p codes => simp at h
  | cons x bytes ih =>
    cases codes with
    | nil => simp at h
    | cons p codes =>
      obtain ⟨hx, h⟩ := List.cons.inj h
      simp [encodeLoop, hx, ih h]

/-- A loop that succeeds has met only bytes with codes, and gives their concatenation. -/
theorem encodeLoop_ok {code : Table BitSeq} {bytes : List Byte} {j : Nat} {acc bits : BitSeq}
    (h : encodeLoop code bytes j acc = .ok bits) :
    ∃ codes : List BitSeq, bytes.map (Table.read code) = codes.map some ∧ bits = acc ++ codes.flatten := by
  induction bytes generalizing j acc with
  | nil => exact ⟨[], rfl, by simpa [encodeLoop, eq_comm] using h⟩
  | cons x bytes ih =>
    rw [encodeLoop] at h
    split at h
    · cases h
    · rename_i p hp
      obtain ⟨codes, hc, rfl⟩ := ih h
      exact ⟨p :: codes, by simp [hp, hc], by simp⟩

/-- The loop stops at the first byte with no code. -/
theorem encodeLoop_unknown {code : Table BitSeq} {before after : List Byte} {x : Byte}
    (hb : ∀ y ∈ before, (Table.read code y).isSome) (hx : Table.read code x = none)
    (j : Nat) (acc : BitSeq) :
    encodeLoop code (before ++ x :: after) j acc = .error (x, j + before.length) := by
  induction before generalizing j acc with
  | nil => simp [encodeLoop, hx]
  | cons y before ih =>
    obtain ⟨p, hp⟩ := Option.isSome_iff_exists.1 (hb y List.mem_cons_self)
    simp only [List.cons_append, encodeLoop, hp]
    rw [ih (fun z hz => hb z (List.mem_cons_of_mem _ hz))]
    simp; omega

end Sys2Proof.Machine
end

