-- ==== Sys2Proof/Laws/Exec.lean ====
section
/-! SUPPORT. What a command can do, said once: `exec_ends`. A command that answers a next state
either raises one of its errors, writing nothing but the response, or responds OK after the one
effect `Effect` names. -/

namespace Sys2Proof.Machine

/-- The effect of a command that responds OK, on the state before its response. -/
def Effect : Instr → State → State → Prop
  | .fclr, s, u => u = { s with freq := [] }
  | .fset x w, s, u => u = s.setWeight x w
  | .build, s, u => ∃ nodes r, buildTree s.freq = some (nodes, r) ∧ u = s.commitTree nodes r
  | .clrby, s, u => u = s.putBytes []
  | .pushby b, s, u => s.bytelen ≠ s.config.bytecap ∧ u = s.pushByte b
  | .clrbi, s, u => u = s.putBits []
  | .pushbi v, s, u => s.bitlen ≠ s.config.bitcap ∧ u = s.pushBit v
  | .encode, s, u => ∃ acc, s.tvalid = true ∧ encodeLoop s.code s.byteBuf 0 [] = .ok acc ∧
      acc.length ≤ s.config.bitcap ∧ u = s.putBits acc
  | .decode, s, u => ∃ out, s.tvalid = true ∧ decodeBits s.node s.root .flush s.bitBuf = .done out ∧
      out.length ≤ s.config.bytecap ∧ u = s.putBytes out
  | .decodes, s, u => ∃ out, s.tvalid = true ∧
      decodeBits s.node s.root .strict s.bitBuf = .done out ∧
      out.length ≤ s.config.bytecap ∧ u = s.putBytes out
  | .unpack, s, u => u = s.putBits (bytesToBits s.byteBuf)
  | .pack, s, u => s.bitlen % 8 = 0 ∧ u = s.putBytes (bitsToBytes s.bitBuf)
  | .nop, s, u | .rdsr _, s, u | .fget _, s, u | .nget _, s, u | .clen _, s, u | .getby _, s, u
  | .getbi _, s, u => u = s

/-- How a command ends when it answers a next state. -/
inductive Ends (i : Instr) (s t : State) : Prop
  /-- It raises one of its errors; NoTree only while there is no tree. -/
  | raised (e : Error) (a : BitVec 8) (d : BitVec 32) :
    t = s.withResponse (responseWord e.code a d) → e.code ∈ mayRaise i →
    (e = .noTree → s.tvalid = false) → Ends i s t
  /-- It responds OK after its effect; a tree-dependent command does so only with a tree. -/
  | responded (u : State) (a : BitVec 8) (d : BitVec 32) :
    t = u.withResponse (responseWord okCode a d) → Effect i s u →
    (needsTree i = true → s.tvalid = true) → Ends i s t

theorem respond_next {a : BitVec 8} {d : BitVec 32} {s t : State} (h : respond a d s = .next t) :
    t = s.withResponse (responseWord okCode a d) := by
  cases h; rfl

theorem raise_next {e : Error} {a : BitVec 8} {d : BitVec 32} {s t : State}
    (h : raise e a d s = .next t) : t = s.withResponse (responseWord e.code a d) := by
  cases h; rfl

theorem runDecode_next {m : DecodeMode} {s t : State} (h : runDecode m s = .next t) :
    (s.tvalid = false ∧ t = s.withResponse (responseWord Error.noTree.code 0 0)) ∨
    s.tvalid = true ∧
      ((∃ start, decodeBits s.node s.root m s.bitBuf = .incomplete start ∧
        t = s.withResponse (responseWord Error.incompleteCode.code 0 (resultD start))) ∨
      ∃ out, decodeBits s.node s.root m s.bitBuf = .done out ∧
        ((s.config.bytecap < out.length ∧
          t = s.withResponse (responseWord Error.capacityExceeded.code 0 (resultD out.length))) ∨
        (out.length ≤ s.config.bytecap ∧
          t = (s.putBytes out).withResponse (responseWord okCode 0 (resultD out.length))))) := by
  unfold runDecode at h
  split at h
  · exact .inl ⟨‹_›, raise_next h⟩
  · rename_i hv
    refine .inr ⟨by simpa using hv, ?_⟩
    split at h
    · cases h
    · exact .inl ⟨_, ‹_›, raise_next h⟩
    · rename_i out ho
      refine .inr ⟨out, ho, ?_⟩
      split at h
      · exact .inl ⟨‹_›, raise_next h⟩
      · exact .inr ⟨Nat.not_lt.1 ‹_›, respond_next h⟩

/-- In flush mode the loop never ends with IncompleteCode (44_decoder.md R146). -/
theorem decodeLoop_flush_ne_incomplete (nodes : List NodeEntry) (root : NodeRef) (n : Nat)
    (bits : BitSeq) (c : Cursor) (start : Nat) :
    decodeLoop nodes root .flush n bits c ≠ .incomplete start := by
  induction n generalizing bits c with
  | zero => simp [decodeLoop]
  | succ n ih =>
    rw [decodeLoop]
    split
    · simp
    · split
      · rename_i h; exact absurd h.2 (by decide)
      · dsimp only
        split
        · split
          · simp
          · exact ih _ _
        · exact ih _ _

/-- Everything a command can do. -/
theorem exec_ends {i : Instr} {s t : State} (h : exec i s = .next t) : Ends i s t := by
  cases i with
  | nop => exact .responded s _ _ (respond_next h) rfl nofun
  | rdsr n =>
    change execRdsr n s = _ at h
    unfold execRdsr at h
    split at h
    · exact .raised .indexOutOfRange _ _ (raise_next h) (by simp [mayRaise, Error.code]) nofun
    · exact .responded s _ _ (respond_next h) rfl nofun
  | fclr => exact .responded _ _ _ (respond_next h) rfl nofun
  | fset x w => exact .responded _ _ _ (respond_next h) rfl nofun
  | fget x =>
    change execFget x s = _ at h
    unfold execFget at h
    split at h <;>
      exact .responded s _ _ (respond_next h) rfl nofun
  | build =>
    change execBuild s = _ at h
    unfold execBuild at h
    split at h
    · exact .raised .emptyFrequencyTable _ _ (raise_next h) (by simp [mayRaise, Error.code]) nofun
    · rename_i nodes r hb
      exact .responded _ _ _ (respond_next h) ⟨nodes, r, hb, rfl⟩ nofun
  | nget k =>
    change execNget k s = _ at h
    unfold execNget at h
    split at h
    · exact .raised .noTree _ _ (raise_next h) (by simp [mayRaise, Error.code]) (fun _ => ‹_›)
    · split at h
      · exact .responded s _ _ (respond_next h) rfl (fun _ => by simp_all)
      · exact .raised .indexOutOfRange _ _ (raise_next h) (by simp [mayRaise, Error.code]) nofun
  | clen x =>
    change execClen x s = _ at h
    unfold execClen at h
    split at h
    · exact .raised .noTree _ _ (raise_next h) (by simp [mayRaise, Error.code]) (fun _ => ‹_›)
    · split at h <;> exact .responded s _ _ (respond_next h) rfl (fun _ => by simp_all)
  | clrby => exact .responded _ _ _ (respond_next h) rfl nofun
  | pushby b =>
    change execPushby b s = _ at h
    unfold execPushby at h
    split at h
    · exact .raised .capacityExceeded _ _ (raise_next h) (by simp [mayRaise, Error.code]) nofun
    · exact .responded _ _ _ (respond_next h) ⟨‹_›, rfl⟩ nofun
  | getby k =>
    change execGetby k s = _ at h
    unfold execGetby at h
    split at h
    · exact .raised .indexOutOfRange _ _ (raise_next h) (by simp [mayRaise, Error.code]) nofun
    · exact .responded s _ _ (respond_next h) rfl nofun
  | clrbi => exact .responded _ _ _ (respond_next h) rfl nofun
  | pushbi v =>
    change execPushbi v s = _ at h
    unfold execPushbi at h
    split at h
    · exact .raised .capacityExceeded _ _ (raise_next h) (by simp [mayRaise, Error.code]) nofun
    · exact .responded _ _ _ (respond_next h) ⟨‹_›, rfl⟩ nofun
  | getbi k =>
    change execGetbi k s = _ at h
    unfold execGetbi at h
    split at h
    · exact .raised .indexOutOfRange _ _ (raise_next h) (by simp [mayRaise, Error.code]) nofun
    · exact .responded s _ _ (respond_next h) rfl nofun
  | encode =>
    change execEncode s = _ at h
    unfold execEncode at h
    split at h
    · exact .raised .noTree _ _ (raise_next h) (by simp [mayRaise, Error.code]) (fun _ => ‹_›)
    · rename_i hv
      have hv : s.tvalid = true := by simpa using hv
      split at h
      · exact .raised .unknownSymbol _ _ (raise_next h) (by simp [mayRaise, Error.code]) nofun
      · rename_i acc hacc
        split at h
        · exact .raised .capacityExceeded _ _ (raise_next h) (by simp [mayRaise, Error.code]) nofun
        · exact .responded _ _ _ (respond_next h) ⟨acc, hv, hacc, Nat.not_lt.1 ‹_›, rfl⟩
            (fun _ => hv)
  | decode =>
    rcases runDecode_next (show runDecode .flush s = .next t from h) with
      ⟨hv, ht⟩ | ⟨hv, ⟨start, hb, ht⟩ | ⟨out, hb, ⟨hl, ht⟩ | ⟨hl, ht⟩⟩⟩
    · exact .raised .noTree _ _ ht (by simp [mayRaise, Error.code]) (fun _ => hv)
    · exact absurd hb (decodeLoop_flush_ne_incomplete _ _ _ _ _ _)
    · exact .raised .capacityExceeded _ _ ht (by simp [mayRaise, Error.code]) nofun
    · exact .responded _ _ _ ht ⟨out, hv, hb, hl, rfl⟩ (fun _ => hv)
  | decodes =>
    rcases runDecode_next (show runDecode .strict s = .next t from h) with
      ⟨hv, ht⟩ | ⟨hv, ⟨start, hb, ht⟩ | ⟨out, hb, ⟨hl, ht⟩ | ⟨hl, ht⟩⟩⟩
    · exact .raised .noTree _ _ ht (by simp [mayRaise, Error.code]) (fun _ => hv)
    · exact .raised .incompleteCode _ _ ht (by simp [mayRaise, Error.code]) nofun
    · exact .raised .capacityExceeded _ _ ht (by simp [mayRaise, Error.code]) nofun
    · exact .responded _ _ _ ht ⟨out, hv, hb, hl, rfl⟩ (fun _ => hv)
  | unpack => exact .responded _ _ _ (respond_next h) rfl nofun
  | pack =>
    change execPack s = _ at h
    unfold execPack at h
    split at h
    · exact .raised .unalignedBitLength _ _ (raise_next h) (by simp [mayRaise, Error.code]) nofun
    · rename_i ha
      exact .responded _ _ _ (respond_next h) ⟨by simpa using ha, rfl⟩ nofun

end Sys2Proof.Machine
end

