-- ==== Sys2Proof/Laws/Step.lean ====
section
/-! SUPPORT. What one step can do, said once (`step_cases`, `runCommand_cases`), and that the word
`withFetchWord` places is the command the next step runs. -/

namespace Sys2Proof.Machine

/-- Everything a command word can do: its command runs, or it is answered IllegalCommand. -/
theorem runCommand_cases {w : CmdWord} {s t : State} (h : runCommand w s = .next t) :
    (∃ i, Sys2Proof.decode w = .ok i ∧ exec i s = .next t) ∨
    (∃ e, Sys2Proof.decode w = .error e) ∧
      t = s.withResponse (responseWord Error.illegalCommand.code (fieldsOf w).op (fieldsOf w).d) := by
  unfold runCommand at h
  split at h
  · exact .inl ⟨_, ‹_›, h⟩
  · exact .inr ⟨⟨_, ‹_›⟩, raise_next h⟩

/-- Everything a step can do. -/
theorem step_cases {s t : State} (h : step s = .next t) :
    (s.pinsNow.rst = true ∧ t = s.pinsUsed.resetEdge) ∨
    s.pinsNow.rst = false ∧
      ((s.phase = .idle ∧ s.pinsNow.cmdValid = true ∧
          t = s.pinsUsed.acceptCommand s.pinsNow.cmdWord) ∨
        (s.phase = .idle ∧ s.pinsNow.cmdValid = false ∧ t = s.pinsUsed) ∨
        (∃ w, s.phase = .busy w 0 ∧ runCommand w s.pinsUsed = .next t) ∨
        (∃ w n, s.phase = .busy w (n + 1) ∧ t = s.pinsUsed.stayBusy w n) ∨
        (s.phase = .resp ∧ s.pinsNow.rspReady = true ∧ t = s.pinsUsed.responseTaken) ∨
        (s.phase = .resp ∧ s.pinsNow.rspReady = false ∧ t = s.pinsUsed)) := by
  unfold step clockEdge at h
  split at h
  · cases h
    exact .inl ⟨‹_›, rfl⟩
  · rename_i hr
    refine .inr ⟨by simpa using hr, ?_⟩
    simp only [State.pinsUsed_phase] at h
    split at h
    · rename_i hp
      split at h
      · cases h; exact .inl ⟨hp, ‹_›, rfl⟩
      · rename_i hv
        cases h; exact .inr (.inl ⟨hp, by simpa using hv, rfl⟩)
    · exact .inr (.inr (.inl ⟨_, ‹_›, h⟩))
    · cases h
      exact .inr (.inr (.inr (.inl ⟨_, _, ‹_›, rfl⟩)))
    · rename_i hp
      split at h
      · cases h; exact .inr (.inr (.inr (.inr (.inl ⟨hp, ‹_›, rfl⟩))))
      · rename_i hv
        cases h; exact .inr (.inr (.inr (.inr (.inr ⟨hp, by simpa using hv, rfl⟩))))

/-- A step that resets. -/
theorem step_reset {s : State} (h : s.pinsNow.rst = true) :
    step s = .next s.pinsUsed.resetEdge := by
  simp [step, clockEdge, h]

/-- A step in IDLE. -/
theorem step_idle {s : State} (hr : s.pinsNow.rst = false) (hp : s.phase = .idle) :
    step s = if s.pinsNow.cmdValid then .next (s.pinsUsed.acceptCommand s.pinsNow.cmdWord)
      else .next s.pinsUsed := by
  simp [step, clockEdge, hr, hp]

/-- A step at the last edge of BUSY. -/
theorem step_run {s : State} {w : CmdWord} (hr : s.pinsNow.rst = false) (hp : s.phase = .busy w 0) :
    step s = runCommand w s.pinsUsed := by
  simp [step, clockEdge, hr, hp]

/-- A step at an earlier edge of BUSY. -/
theorem step_busy {s : State} {w : CmdWord} {n : Nat} (hr : s.pinsNow.rst = false)
    (hp : s.phase = .busy w (n + 1)) : step s = .next (s.pinsUsed.stayBusy w n) := by
  simp [step, clockEdge, hr, hp]

/-- A step in RESP. -/
theorem step_resp {s : State} (hr : s.pinsNow.rst = false) (hp : s.phase = .resp) :
    step s = if s.pinsNow.rspReady then .next s.pinsUsed.responseTaken else .next s.pinsUsed := by
  simp [step, clockEdge, hr, hp]

/-- The step after `withFetchWord` runs exactly the command of the word placed. -/
theorem step_withFetchWord (s : State) (nbits w : Nat) :
    step (s.withFetchWord nbits w) =
      runCommand (tableWord nbits w) { s with phase := .busy (tableWord nbits w) 0 } := rfl

end Sys2Proof.Machine
end

