-- ==== Sys2Proof/Laws/Interface.lean ====
section
/-! SUPPORT. A command reads neither PHASE, RSPREG, the host's pins nor the model's counter
(10_state.md R24). -/

namespace Sys2Proof.Machine

/-- The state with other contents of everything a command does not read. -/
def State.withInterface (s : State) (phase : Phase) (rspreg : RspWord) (pins : List Pins)
    (accepted : Nat) : State :=
  { s with phase := phase, rspreg := rspreg, pins := pins, accepted := accepted }

section
variable (s : State) (phase : Phase) (rspreg : RspWord) (pins : List Pins) (accepted : Nat)

@[simp] theorem State.withInterface_config :
    (s.withInterface phase rspreg pins accepted).config = s.config := rfl

@[simp] theorem State.withInterface_freq :
    (s.withInterface phase rspreg pins accepted).freq = s.freq := rfl

@[simp] theorem State.withInterface_tvalid :
    (s.withInterface phase rspreg pins accepted).tvalid = s.tvalid := rfl

@[simp] theorem State.withInterface_nsym :
    (s.withInterface phase rspreg pins accepted).nsym = s.nsym := rfl

@[simp] theorem State.withInterface_root :
    (s.withInterface phase rspreg pins accepted).root = s.root := rfl

@[simp] theorem State.withInterface_node :
    (s.withInterface phase rspreg pins accepted).node = s.node := rfl

@[simp] theorem State.withInterface_code :
    (s.withInterface phase rspreg pins accepted).code = s.code := rfl

@[simp] theorem State.withInterface_byteBuf :
    (s.withInterface phase rspreg pins accepted).byteBuf = s.byteBuf := rfl

@[simp] theorem State.withInterface_bitBuf :
    (s.withInterface phase rspreg pins accepted).bitBuf = s.bitBuf := rfl

@[simp] theorem State.withInterface_statusRegister (n : Nat) :
    (s.withInterface phase rspreg pins accepted).statusRegister n = s.statusRegister n := rfl

@[simp] theorem State.withInterface_byteAt (i : Nat) :
    (s.withInterface phase rspreg pins accepted).byteAt i = s.byteAt i := rfl

@[simp] theorem State.withInterface_bitAt (i : Nat) :
    (s.withInterface phase rspreg pins accepted).bitAt i = s.bitAt i := rfl

end

/-- `o'` goes on as `o` does, but with the pins and the counter given. -/
def Goes (pins : List Pins) (accepted : Nat) (o o' : Host.Outcome State Fault Refusal) : Prop :=
  ∀ u, o = .next u → o' = .next { u with pins := pins, accepted := accepted }

section
variable {s : State} {phase : Phase} {rspreg : RspWord} {pins : List Pins} {accepted : Nat}

theorem goes_respond (a : BitVec 8) (d : BitVec 32) :
    Goes pins accepted (respond a d s)
      (respond a d (s.withInterface phase rspreg pins accepted)) := by
  rintro u h; cases h; rfl

theorem goes_raise (e : Error) (a : BitVec 8) (d : BitVec 32) :
    Goes pins accepted (raise e a d s)
      (raise e a d (s.withInterface phase rspreg pins accepted)) := by
  rintro u h; cases h; rfl

theorem goes_ite {c : Prop} [Decidable c] {a b a' b' : Host.Outcome State Fault Refusal}
    (ha : Goes pins accepted a a') (hb : Goes pins accepted b b') :
    Goes pins accepted (if c then a else b) (if c then a' else b') := by
  split <;> assumption

theorem goes_runDecode (m : DecodeMode) : Goes pins accepted (runDecode m s)
    (runDecode m (s.withInterface phase rspreg pins accepted)) := by
  refine goes_ite (goes_raise _ _ _) ?_
  rw [State.withInterface_node, State.withInterface_root, State.withInterface_bitBuf]
  cases decodeBits s.node s.root m s.bitBuf with
  | unbounded => exact nofun
  | incomplete start => exact goes_raise _ _ _
  | done out => exact goes_ite (goes_raise _ _ _) (goes_respond (s := s.putBytes out) _ _)

/-- A command does the same whatever PHASE, RSPREG, the pins and the counter are. -/
theorem exec_withInterface (i : Instr) : Goes pins accepted (exec i s)
    (exec i (s.withInterface phase rspreg pins accepted)) := by
  cases i with
  | nop => exact goes_respond _ _
  | fclr => exact goes_respond (s := { s with freq := [] }) _ _
  | fset x w => exact goes_respond (s := s.setWeight x w) _ _
  | clrby => exact goes_respond (s := s.putBytes []) _ _
  | clrbi => exact goes_respond (s := s.putBits []) _ _
  | unpack => exact goes_respond (s := s.putBits (bytesToBits s.byteBuf)) _ _
  | decode => exact goes_runDecode _
  | decodes => exact goes_runDecode _
  | fget x => exact goes_ite (goes_respond _ _) (goes_respond _ _)
  | nget k => exact goes_ite (goes_raise _ _ _) (goes_ite (goes_respond _ _) (goes_raise _ _ _))
  | pushby b => exact goes_ite (goes_raise _ _ _) (goes_respond (s := s.pushByte b) _ _)
  | pushbi v => exact goes_ite (goes_raise _ _ _) (goes_respond (s := s.pushBit v) _ _)
  | pack =>
    exact goes_ite (goes_raise _ _ _) (goes_respond (s := s.putBytes (bitsToBytes s.bitBuf)) _ _)
  | rdsr n =>
    show Goes _ _ (execRdsr n s) (execRdsr n _)
    unfold execRdsr
    rw [State.withInterface_statusRegister]
    cases s.statusRegister (indexOf n)
    · exact goes_raise _ _ _
    · exact goes_respond _ _
  | getby n =>
    show Goes _ _ (execGetby n s) (execGetby n _)
    unfold execGetby
    rw [State.withInterface_byteAt]
    cases s.byteAt (indexOf n)
    · exact goes_raise _ _ _
    · exact goes_respond _ _
  | getbi n =>
    show Goes _ _ (execGetbi n s) (execGetbi n _)
    unfold execGetbi
    rw [State.withInterface_bitAt]
    cases s.bitAt (indexOf n)
    · exact goes_raise _ _ _
    · exact goes_respond _ _
  | clen x =>
    refine goes_ite (goes_raise _ _ _) ?_
    rw [State.withInterface_code]
    cases Table.read s.code x <;> exact goes_respond _ _
  | build =>
    show Goes _ _ (execBuild s) (execBuild _)
    unfold execBuild
    rw [State.withInterface_freq]
    cases buildTree s.freq with
    | none => exact goes_raise _ _ _
    | some t => exact goes_respond (s := s.commitTree t.1 t.2) _ _
  | encode =>
    refine goes_ite (goes_raise _ _ _) ?_
    rw [State.withInterface_code, State.withInterface_byteBuf]
    cases encodeLoop s.code s.byteBuf 0 [] with
    | error e => exact goes_raise _ _ _
    | ok acc => exact goes_ite (goes_raise _ _ _) (goes_respond (s := s.putBits acc) _ _)

/-- The same of a command word. -/
theorem runCommand_withInterface (w : CmdWord) : Goes pins accepted (runCommand w s)
    (runCommand w (s.withInterface phase rspreg pins accepted)) := by
  unfold runCommand
  cases Sys2Proof.decode w with
  | ok i => exact exec_withInterface i
  | error e => exact goes_raise _ _ _

/-- A command word's outcome is in RESP. -/
theorem runCommand_phase {w : CmdWord} {u : State} (h : runCommand w s = .next u) :
    u.phase = .resp := by
  rcases runCommand_cases h with ⟨i, -, he⟩ | ⟨-, rfl⟩
  · rcases exec_ends he with ⟨e, a, d, rfl, -, -⟩ | ⟨u, a, d, rfl, -, -⟩ <;> rfl
  · rfl

end

end Sys2Proof.Machine
end

