-- ==== Sys2Proof/Laws/Packing.lean ====
section
/-! SUPPORT. Bit packing: the eight bits of a byte and the byte of eight bits are inverse to each
other, so the conversions of whole buffers are (45_bitpacking.md R162, R163). -/

namespace Sys2Proof.Machine

@[simp] theorem byteBits_length (b : Byte) : (byteBits b).length = 8 := rfl

/-- Bit `j` of a byte's bits is `B[7 − j]` (20_memory.md R42). -/
theorem byteBits_getElem? (b : Byte) {j : Nat} (h : j < 8) :
    (byteBits b)[j]? = some (b.getLsbD (7 - j)) := by
  rcases j with _ | _ | _ | _ | _ | _ | _ | _ | j
  all_goals first | rfl | omega

/-- The byte of a byte's bits. -/
theorem bitsByte_bits : ∀ b : Byte,
    bitsByte (b.getLsbD 7) (b.getLsbD 6) (b.getLsbD 5) (b.getLsbD 4) (b.getLsbD 3) (b.getLsbD 2)
      (b.getLsbD 1) (b.getLsbD 0) = b := by decide

/-- The bits of the byte of eight bits. -/
theorem byteBits_bitsByte : ∀ b0 b1 b2 b3 b4 b5 b6 b7 : Bool,
    byteBits (bitsByte b0 b1 b2 b3 b4 b5 b6 b7) = [b0, b1, b2, b3, b4, b5, b6, b7] := by decide

@[simp] theorem bytesToBits_nil : bytesToBits [] = [] := rfl

@[simp] theorem bytesToBits_cons (b : Byte) (bytes : List Byte) :
    bytesToBits (b :: bytes) = byteBits b ++ bytesToBits bytes := by
  simp [bytesToBits]

@[simp] theorem bytesToBits_length (bytes : List Byte) :
    (bytesToBits bytes).length = 8 * bytes.length := by
  induction bytes with
  | nil => rfl
  | cons b bytes ih => simp [ih]; omega

/-- Bit `8m + j` of the bits of a buffer is bit `j` of byte `m`. -/
theorem bytesToBits_getElem? {bytes : List Byte} {m : Nat} {b : Byte} (h : bytes[m]? = some b)
    {j : Nat} (hj : j < 8) : (bytesToBits bytes)[8 * m + j]? = some (b.getLsbD (7 - j)) := by
  induction bytes generalizing m with
  | nil => simp at h
  | cons a bytes ih =>
    rw [bytesToBits_cons]
    cases m with
    | zero =>
      have : a = b := by simpa using h
      subst this
      rw [List.getElem?_append_left (by simp; omega)]
      simpa using byteBits_getElem? a hj
    | succ m =>
      rw [List.getElem?_append_right (by simp; omega)]
      have := ih (m := m) (by simpa using h)
      rw [byteBits_length, show 8 * (m + 1) + j - 8 = 8 * m + j by omega, this]

theorem bitsToBytes_byteBits (b : Byte) (bits : BitSeq) :
    bitsToBytes (byteBits b ++ bits) = b :: bitsToBytes bits := by
  simp only [byteBits, List.cons_append, List.nil_append, bitsToBytes, bitsByte_bits]

/-- Packing inverts unpacking (45_bitpacking.md R162). -/
theorem bitsToBytes_bytesToBits (bytes : List Byte) : bitsToBytes (bytesToBits bytes) = bytes := by
  induction bytes with
  | nil => rfl
  | cons b bytes ih => rw [bytesToBits_cons, bitsToBytes_byteBits, ih]

/-- Eight bits are the bits of their byte, so a whole number of groups comes from bytes. -/
theorem bytesToBits_surjective {bits : BitSeq} (h : bits.length % 8 = 0) :
    ∃ bytes, bits = bytesToBits bytes := by
  induction bits using bitsToBytes.induct with
  | case1 b0 b1 b2 b3 b4 b5 b6 b7 bits ih =>
    obtain ⟨bytes, hb⟩ := ih (by simp at h; omega)
    exact ⟨bitsByte b0 b1 b2 b3 b4 b5 b6 b7 :: bytes, by simp [byteBits_bitsByte, hb]⟩
  | case2 bits hshort =>
    rcases bits with _ | ⟨b0, _ | ⟨b1, _ | ⟨b2, _ | ⟨b3, _ | ⟨b4, _ | ⟨b5, _ | ⟨b6, _ | ⟨b7, bits⟩⟩⟩⟩⟩⟩⟩⟩
    · exact ⟨[], rfl⟩
    all_goals first | (exact absurd rfl (hshort _ _ _ _ _ _ _ _ _)) | simp at h

/-- Unpacking inverts packing on whole groups of eight bits (45_bitpacking.md R163). -/
theorem bytesToBits_bitsToBytes {bits : BitSeq} (h : bits.length % 8 = 0) :
    bytesToBits (bitsToBytes bits) = bits := by
  obtain ⟨bytes, rfl⟩ := bytesToBits_surjective h
  rw [bitsToBytes_bytesToBits]

theorem bitsToBytes_length {bits : BitSeq} (h : bits.length % 8 = 0) :
    (bitsToBytes bits).length = bits.length / 8 := by
  obtain ⟨bytes, rfl⟩ := bytesToBits_surjective h
  rw [bitsToBytes_bytesToBits, bytesToBits_length]
  omega

end Sys2Proof.Machine
end

