-- ==== Sys2Proof/Laws/Memory.lean ====
section
/-! SUPPORT. Every operation over the memories keeps their form and their capacities, and the memories
after reset have it (10_state.md R10, R15, R17, R19, R20). -/

namespace Sys2Proof.Machine

section
variable {s : State}

theorem reset_memory_wf : Memory.wf State.reset := by decide

theorem memory_wf_resetEdge : Memory.wf s.resetEdge :=
  ⟨Table.wf_nil, Table.wf_nil, Nat.zero_le _, Nat.zero_le _, Nat.zero_le _⟩

theorem memory_wf_withResponse {w : RspWord} : Memory.wf (s.withResponse w) ↔ Memory.wf s := Iff.rfl

theorem memory_wf_clearFreq (h : Memory.wf s) : Memory.wf { s with freq := [] } :=
  ⟨Table.wf_nil, h.2⟩

theorem memory_wf_setWeight (h : Memory.wf s) (x : Symbol) (w : Weight) :
    Memory.wf (s.setWeight x w) := ⟨Table.wf_write x w h.1, h.2⟩

theorem memory_wf_putBytes (h : Memory.wf s) {bytes : List Byte}
    (hb : bytes.length ≤ s.config.bytecap) : Memory.wf (s.putBytes bytes) :=
  ⟨h.1, h.2.1, h.2.2.1, hb, h.2.2.2.2⟩

theorem memory_wf_putBits (h : Memory.wf s) {bits : BitSeq} (hb : bits.length ≤ s.config.bitcap) :
    Memory.wf (s.putBits bits) := ⟨h.1, h.2.1, h.2.2.1, h.2.2.2.1, hb⟩

theorem memory_wf_pushByte (h : Memory.wf s) (hb : s.bytelen ≠ s.config.bytecap) (b : Byte) :
    Memory.wf (s.pushByte b) := by
  refine memory_wf_putBytes h ?_
  have := h.2.2.2.1
  rw [List.length_append, List.length_singleton]
  exact Nat.lt_of_le_of_ne this hb

theorem memory_wf_pushBit (h : Memory.wf s) (hb : s.bitlen ≠ s.config.bitcap) (v : Bool) :
    Memory.wf (s.pushBit v) := by
  refine memory_wf_putBits h ?_
  have := h.2.2.2.2
  rw [List.length_append, List.length_singleton]
  exact Nat.lt_of_le_of_ne this hb

theorem memory_wf_commitTree (h : Memory.wf s) {nodes : List NodeEntry} {root : NodeRef}
    (hb : Built s.freq nodes root) : Memory.wf (s.commitTree nodes root) :=
  ⟨h.1, deriveCodes_wf root, (hb.arena h.1).size, h.2.2.2⟩

/-- An unpacked BYTEBUF fits BITBUF (45_bitpacking.md R160). -/
theorem memory_wf_unpack (h : Memory.wf s) : Memory.wf (s.putBits (bytesToBits s.byteBuf)) := by
  refine memory_wf_putBits h ?_
  have := h.2.2.2.1
  rw [bytesToBits_length, Config.bitcap]
  simp only [State.bytelen] at this
  omega

/-- A packed BITBUF fits BYTEBUF (45_bitpacking.md R161). -/
theorem memory_wf_pack (h : Memory.wf s) (h8 : s.bitlen % 8 = 0) : Memory.wf (s.putBytes (bitsToBytes s.bitBuf)) := by
  refine memory_wf_putBytes h ?_
  have := h.2.2.2.2
  rw [bitsToBytes_length h8]
  simp only [State.bitlen, Config.bitcap] at this
  omega

end

end Sys2Proof.Machine
end

