-- ==== Sys2Proof/Laws/PerInstr.lean ====
section
/-! SUPPORT. The family `EncodingRow`: the fields of every command are well formed, and its word is
covered by the row of the opcode table that bears its mnemonic (30_encoding.md R63). -/

namespace Sys2Proof.Laws.EncodingRow

/-- The command's fields are well formed and its word is a word of its own row. -/
def Statement (i : Instr) : Prop :=
  i.fields.wellFormed = true ∧
    ∃ r ∈ opcodeTable, r.mnemonic = i.mnemonic ∧ r.covers (Sys2Proof.encode i) = true

/-- A row covers a command's word if its fields agree with the row's under the mask. -/
theorem of_fields {i : Instr} {r : OpcodeRow} (hw : i.fields.wellFormed = true)
    (hr : r ∈ opcodeTable) (hm : r.mnemonic = i.mnemonic)
    (hop : i.fields.op &&& (fieldsOf r.mask).op = (fieldsOf r.pattern).op)
    (ha : i.fields.a &&& (fieldsOf r.mask).a = (fieldsOf r.pattern).a)
    (hd : i.fields.d &&& (fieldsOf r.mask).d = (fieldsOf r.pattern).d) : Statement i := by
  refine ⟨hw, r, hr, hm, ?_⟩
  rw [covers_iff, Sys2Proof.encode, fieldsOf_wordOf]
  exact ⟨hop, ha, hd⟩

theorem wellFormed_of_legal {f : Fields} (hop : f.opAssigned = true) (ha : f.aLegal = true)
    (hd : f.dLegal = true) : f.wellFormed = true := by
  rw [Fields.wellFormed, hop, ha, hd]; rfl

theorem nop : Statement .nop :=
  of_fields (r := ⟨"NOP", 0x000000000000, 0xFFFFFFFFFFFF⟩) (by decide) (by decide) rfl (by decide)
    (by decide) (by decide)

theorem rdsr (n : BitVec 32) : Statement (.rdsr n) :=
  of_fields (r := ⟨"RDSR", 0x010000000000, 0xFFFF00000000⟩)
    (wellFormed_of_legal (by simp [Instr.fields, Fields.opAssigned])
      (by simp [Instr.fields, Fields.aLegal, Fields.hasA])
      (by simp [Instr.fields, Fields.dLegal, Fields.hasD]))
    (by decide) rfl (by simp [Instr.fields, fieldsOf]) (by simp [Instr.fields, fieldsOf])
    (by simp [Instr.fields, fieldsOf])

theorem fclr : Statement .fclr :=
  of_fields (r := ⟨"FCLR", 0x100000000000, 0xFFFFFFFFFFFF⟩) (by decide) (by decide) rfl (by decide)
    (by decide) (by decide)

theorem fset (s : Symbol) (w : Weight) : Statement (.fset s w) :=
  of_fields (r := ⟨"FSET", 0x110000000000, 0xFF0000000000⟩)
    (wellFormed_of_legal (by simp [Instr.fields, Fields.opAssigned])
      (by simp [Instr.fields, Fields.aLegal, Fields.hasA])
      (by simp [Instr.fields, Fields.dLegal, Fields.hasD]))
    (by decide) rfl (by simp [Instr.fields, fieldsOf]) (by simp [Instr.fields, fieldsOf])
    (by simp [Instr.fields, fieldsOf])

theorem fget (s : Symbol) : Statement (.fget s) :=
  of_fields (r := ⟨"FGET", 0x120000000000, 0xFF00FFFFFFFF⟩)
    (wellFormed_of_legal (by simp [Instr.fields, Fields.opAssigned])
      (by simp [Instr.fields, Fields.aLegal, Fields.hasA])
      (by simp [Instr.fields, Fields.dLegal, Fields.hasD]))
    (by decide) rfl (by simp [Instr.fields, fieldsOf]) (by simp [Instr.fields, fieldsOf])
    (by simp [Instr.fields, fieldsOf])

theorem build : Statement .build :=
  of_fields (r := ⟨"BUILD", 0x200000000000, 0xFFFFFFFFFFFF⟩) (by decide) (by decide) rfl (by decide)
    (by decide) (by decide)

theorem nget (k : BitVec 32) : Statement (.nget k) :=
  of_fields (r := ⟨"NGET", 0x210000000000, 0xFFFF00000000⟩)
    (wellFormed_of_legal (by simp [Instr.fields, Fields.opAssigned])
      (by simp [Instr.fields, Fields.aLegal, Fields.hasA])
      (by simp [Instr.fields, Fields.dLegal, Fields.hasD]))
    (by decide) rfl (by simp [Instr.fields, fieldsOf]) (by simp [Instr.fields, fieldsOf])
    (by simp [Instr.fields, fieldsOf])

theorem clen (s : Symbol) : Statement (.clen s) :=
  of_fields (r := ⟨"CLEN", 0x220000000000, 0xFF00FFFFFFFF⟩)
    (wellFormed_of_legal (by simp [Instr.fields, Fields.opAssigned])
      (by simp [Instr.fields, Fields.aLegal, Fields.hasA])
      (by simp [Instr.fields, Fields.dLegal, Fields.hasD]))
    (by decide) rfl (by simp [Instr.fields, fieldsOf]) (by simp [Instr.fields, fieldsOf])
    (by simp [Instr.fields, fieldsOf])

theorem clrby : Statement .clrby :=
  of_fields (r := ⟨"CLRBY", 0x300000000000, 0xFFFFFFFFFFFF⟩) (by decide) (by decide) rfl (by decide)
    (by decide) (by decide)

theorem pushby (b : Byte) : Statement (.pushby b) :=
  of_fields (r := ⟨"PUSHBY", 0x310000000000, 0xFF00FFFFFFFF⟩)
    (wellFormed_of_legal (by simp [Instr.fields, Fields.opAssigned])
      (by simp [Instr.fields, Fields.aLegal, Fields.hasA])
      (by simp [Instr.fields, Fields.dLegal, Fields.hasD]))
    (by decide) rfl (by simp [Instr.fields, fieldsOf]) (by simp [Instr.fields, fieldsOf])
    (by simp [Instr.fields, fieldsOf])

theorem getby (i : BitVec 32) : Statement (.getby i) :=
  of_fields (r := ⟨"GETBY", 0x320000000000, 0xFFFF00000000⟩)
    (wellFormed_of_legal (by simp [Instr.fields, Fields.opAssigned])
      (by simp [Instr.fields, Fields.aLegal, Fields.hasA])
      (by simp [Instr.fields, Fields.dLegal, Fields.hasD]))
    (by decide) rfl (by simp [Instr.fields, fieldsOf]) (by simp [Instr.fields, fieldsOf])
    (by simp [Instr.fields, fieldsOf])

theorem clrbi : Statement .clrbi :=
  of_fields (r := ⟨"CLRBI", 0x380000000000, 0xFFFFFFFFFFFF⟩) (by decide) (by decide) rfl (by decide)
    (by decide) (by decide)

theorem pushbi (v : Bool) : Statement (.pushbi v) := by
  cases v <;>
    exact of_fields (r := ⟨"PUSHBI", 0x390000000000, 0xFFFEFFFFFFFF⟩) (by decide) (by decide) rfl
      (by decide) (by decide) (by decide)

theorem getbi (i : BitVec 32) : Statement (.getbi i) :=
  of_fields (r := ⟨"GETBI", 0x3A0000000000, 0xFFFF00000000⟩)
    (wellFormed_of_legal (by simp [Instr.fields, Fields.opAssigned])
      (by simp [Instr.fields, Fields.aLegal, Fields.hasA])
      (by simp [Instr.fields, Fields.dLegal, Fields.hasD]))
    (by decide) rfl (by simp [Instr.fields, fieldsOf]) (by simp [Instr.fields, fieldsOf])
    (by simp [Instr.fields, fieldsOf])

theorem encode : Statement .encode :=
  of_fields (r := ⟨"ENCODE", 0x400000000000, 0xFFFFFFFFFFFF⟩) (by decide) (by decide) rfl (by decide)
    (by decide) (by decide)

theorem decode : Statement .decode :=
  of_fields (r := ⟨"DECODE", 0x410000000000, 0xFFFFFFFFFFFF⟩) (by decide) (by decide) rfl (by decide)
    (by decide) (by decide)

theorem decodes : Statement .decodes :=
  of_fields (r := ⟨"DECODES", 0x410100000000, 0xFFFFFFFFFFFF⟩) (by decide) (by decide) rfl (by decide)
    (by decide) (by decide)

theorem unpack : Statement .unpack :=
  of_fields (r := ⟨"UNPACK", 0x480000000000, 0xFFFFFFFFFFFF⟩) (by decide) (by decide) rfl (by decide)
    (by decide) (by decide)

theorem pack : Statement .pack :=
  of_fields (r := ⟨"PACK", 0x490000000000, 0xFFFFFFFFFFFF⟩) (by decide) (by decide) rfl (by decide)
    (by decide) (by decide)

end Sys2Proof.Laws.EncodingRow
end

