-- ==== Sys2Proof/Machine/Assembler.lean ====
section
/-! DEFINITION. The notation of programs: one command or pseudo-command a line, with the response it is
expected to get, as 30_encoding.md R66 and R67 write them (log 19). No part of the core reads it: it
says which command words, in order, such a program stands for. -/

namespace Sys2Proof.Machine.Assembler

/-- The pieces of a line. -/
inductive Token where
  /-- A run of characters with no special meaning: a mnemonic, a number, a status name, `=>`. -/
  | word (chars : List Char)
  /-- One character in single quotes. -/
  | quoted (c : Char)
  /-- Characters in double quotes (PUSHS). -/
  | text (chars : List Char)
  /-- A comma, a colon, a parenthesis or a brace. -/
  | mark (c : Char)
  deriving DecidableEq, Repr

/-- What the scanner is inside of, with the characters read so far, latest first. -/
inductive Inside where
  /-- Nothing. -/
  | nothing
  /-- A word. -/
  | word (chars : List Char)
  /-- A text in double quotes. -/
  | text (chars : List Char)
  deriving DecidableEq, Repr

/-- The opening brace of LOADF. -/
def openBrace : Char := Char.ofNat 0x7B

/-- The closing brace of LOADF. -/
def closeBrace : Char := Char.ofNat 0x7D

/-- The characters that stand alone. -/
def isMark (c : Char) : Bool := c ∈ [',', ':', '(', ')', openBrace, closeBrace]

/-- The characters that separate and mean nothing. -/
def isSpace (c : Char) : Bool := c.toNat = 0x20 || c.toNat = 0x09 || c.toNat = 0x0D

/-- The word that ends here, if the scanner is inside one. -/
def Inside.close : Inside → List Token
  | .nothing => []
  | .word chars => [.word chars.reverse]
  | .text _ => []

/-- Split a line into its pieces; `;` starts a comment (R66). -/
def scan : Inside → List Char → Option (List Token)
  | .text _, [] => none
  | .nothing, [] => some []
  | .word chars, [] => some [.word chars.reverse]
  | .text chars, c :: cs =>
    if c = '"' then (scan .nothing cs).map (.text chars.reverse :: ·) else scan (.text (c :: chars)) cs
  | m, '\'' :: c :: '\'' :: cs => (scan .nothing cs).map (m.close ++ .quoted c :: ·)
  | m, c :: cs =>
    if c = ';' then some m.close
    else if c = '"' then (scan (.text []) cs).map (m.close ++ ·)
    else if isSpace c then (scan .nothing cs).map (m.close ++ ·)
    else if isMark c then (scan .nothing cs).map (m.close ++ .mark c :: ·)
    else match m with
      | .word chars => scan (.word (c :: chars)) cs
      | .nothing => scan (.word [c]) cs
      | .text _ => none

/-- The value of a digit. -/
def digit (c : Char) : Option Nat :=
  let n := c.toNat
  if 0x30 ≤ n ∧ n ≤ 0x39 then some (n - 0x30)
  else if 0x41 ≤ n ∧ n ≤ 0x46 then some (n - 0x37)
  else if 0x61 ≤ n ∧ n ≤ 0x66 then some (n - 0x57)
  else none

/-- The value of digits in a base, most significant first, after the value so far. -/
def digits (base : Nat) : Nat → List Char → Option Nat
  | value, [] => some value
  | value, c :: cs =>
    match digit c with
    | some d => if d < base then digits base (value * base + d) cs else none
    | none => none

/-- A number: decimal, `0x` hexadecimal, `0b` binary, or one ASCII character in single quotes (R66). -/
def number : Token → Option Nat
  | .quoted c => if c.toNat < 128 then some c.toNat else none
  | .word ('0' :: 'x' :: c :: cs) => digits 16 0 (c :: cs)
  | .word ('0' :: 'b' :: c :: cs) => digits 2 0 (c :: cs)
  | .word (c :: cs) => digits 10 0 (c :: cs)
  | .word [] => none
  | .text _ => none
  | .mark _ => none

/-- A number that fits a field of the given width. -/
def field (width : Nat) (t : Token) : Option (BitVec width) :=
  (number t).bind (fun n => if n < 2 ^ width then some (BitVec.ofNat width n) else none)

/-- One digit of PUSHBITS. -/
def bit (c : Char) : Option Bool :=
  if c = '0' then some false else if c = '1' then some true else none

/-- The pairs of LOADF after its opening brace (R67). -/
def pairs : List Token → Option (List (Symbol × Weight))
  | [s, .mark ':', w, .mark c] =>
    if c = closeBrace then
      (field 8 s).bind (fun x => (field 32 w).map (fun v => [(x, v)])) else none
  | s :: .mark ':' :: w :: .mark ',' :: ts =>
    (field 8 s).bind (fun x => (field 32 w).bind (fun v => (pairs ts).map ((x, v) :: ·)))
  | _ => none

/-- The command of a mnemonic with no operand. -/
def plain (m : String) : Option Instr :=
  if m = "NOP" then some .nop
  else if m = "FCLR" then some .fclr
  else if m = "BUILD" then some .build
  else if m = "CLRBY" then some .clrby
  else if m = "CLRBI" then some .clrbi
  else if m = "ENCODE" then some .encode
  else if m = "DECODE" then some .decode
  else if m = "DECODES" then some .decodes
  else if m = "UNPACK" then some .unpack
  else if m = "PACK" then some .pack
  else none

/-- The command of a mnemonic with one operand (R63). -/
def unary (m : String) (t : Token) : Option Instr :=
  if m = "RDSR" then (field 32 t).map .rdsr
  else if m = "FGET" then (field 8 t).map .fget
  else if m = "NGET" then (field 32 t).map .nget
  else if m = "CLEN" then (field 8 t).map .clen
  else if m = "PUSHBY" then (field 8 t).map .pushby
  else if m = "GETBY" then (field 32 t).map .getby
  else if m = "PUSHBI" then (field 1 t).map (fun v => .pushbi (v.getLsbD 0))
  else if m = "GETBI" then (field 32 t).map .getbi
  else none

/-- The pseudo-commands (R67). -/
def pseudo (m : String) : List Token → Option Pseudo
  | [.text chars] =>
    if m = "PUSHS" ∧ chars.all (fun c => c.toNat < 256) then
      some (.pushs (chars.map (fun c => BitVec.ofNat 8 c.toNat))) else none
  | [.word chars] => if m = "PUSHBITS" then (chars.mapM bit).map .pushbits else none
  | .mark c :: ts =>
    if m = "LOADF" ∧ c = openBrace then
      (if ts = [.mark closeBrace] then some (.loadf []) else (pairs ts).map .loadf) else none
  | _ => none

/-- The commands a line's pieces stand for, before `=>`. -/
def commands : List Token → Option (List Instr)
  | [] => some []
  | .word m :: ts =>
    match pseudo (String.ofList m) ts with
    | some p => some p.expand
    | none =>
      match ts with
      | [] => (plain (String.ofList m)).map ([·])
      | [t] => (unary (String.ofList m) t).map ([·])
      | [s, .mark ',', w] =>
        if String.ofList m = "FSET" then
          (field 8 s).bind (fun x => (field 32 w).map (fun v => [.fset x v])) else none
      | _ => none
  | _ => none

/-- The status codes by name (60_exceptions.md R170). -/
def statusNamed (m : String) : Option (BitVec 8) :=
  if m = "OK" then some okCode
  else if m = "EmptyFrequencyTable" then some Error.emptyFrequencyTable.code
  else if m = "UnknownSymbol" then some Error.unknownSymbol.code
  else if m = "UnalignedBitLength" then some Error.unalignedBitLength.code
  else if m = "IncompleteCode" then some Error.incompleteCode.code
  else if m = "NoTree" then some Error.noTree.code
  else if m = "CapacityExceeded" then some Error.capacityExceeded.code
  else if m = "IndexOutOfRange" then some Error.indexOutOfRange.code
  else if m = "IllegalCommand" then some Error.illegalCommand.code
  else none

/-- An expected response `ST(A, D)` (R66), as the word it is. -/
def response : List Token → Option RspWord
  | [.word m, .mark '(', a, .mark ',', d, .mark ')'] =>
    (statusNamed (String.ofList m)).bind (fun st =>
      (field 8 a).bind (fun x => (field 32 d).map (fun v => responseWord st x v)))
  | _ => none

/-- One line of a program. -/
structure Line where
  /-- The commands it stands for, in order. -/
  commands : List Instr
  /-- The response written after `=>`, where there is one. -/
  expected : Option RspWord
  deriving DecidableEq, Repr

/-- The pieces before and after `=>`. -/
def splitArrow : List Token → List Token × Option (List Token)
  | [] => ([], none)
  | t :: ts =>
    if t = .word ['=', '>'] then ([], some ts)
    else ((t :: (splitArrow ts).1), (splitArrow ts).2)

/-- A line of a program (R66); `none` where it is none. -/
def line (chars : List Char) : Option Line :=
  (scan .nothing chars).bind (fun ts =>
    match splitArrow ts with
    | (before, none) => (commands before).map (fun cs => ⟨cs, none⟩)
    | (before, some after) =>
      (commands before).bind (fun cs => (response after).map (fun r => ⟨cs, some r⟩)))

/-- The command words a program presents, in order (R66, R23). -/
def program (lines : List (List Char)) : Option (List CmdWord) :=
  (lines.mapM line).map (fun ls => (ls.flatMap Line.commands).map encode)

end Sys2Proof.Machine.Assembler
end

