-- ==== Sys2Proof/Tests/Slice0.lean ====
section
/-! SUPPORT. Tests: ill-formed fields that WellFormed refuses, words written out from the spec's
encodings, single commands against the vectors of 95_test_vectors.md (their ids stand beside them), and
for each statement with hypotheses a concrete state and operands that meet them. -/

namespace Sys2Proof.Tests

open Sys2Proof Sys2Proof.Machine

/-! ### Sample states -/

/-- A state whose next step runs the command `w`. -/
def running (w : CmdWord) : State := State.reset.presentCommand w

/-- The frequency table {a:2, b:1, c:1} of V-B1. -/
def abcTable : State := { State.reset with freq := [(0x61, 2), (0x62, 1), (0x63, 1)] }

/-- The tree of V-B1, as the vector writes it, with bytes and bits in the buffers. -/
def abcTree (bytes : List Byte) (bits : BitSeq) : State :=
  { abcTable with
    tvalid := true, nsym := 3, root := 0x101, node := [⟨0x062, 0x063⟩, ⟨0x061, 0x100⟩],
    code := [(0x61, [false]), (0x62, [true, false]), (0x63, [true, true])],
    byteBuf := bytes, bitBuf := bits }

/-- The tree of V-B2, one leaf, with bits in the buffer. -/
def xTree (bits : BitSeq) : State :=
  { State.reset with
    freq := [(0x78, 5)], tvalid := true, nsym := 1, root := 0x078, code := [(0x78, [false])],
    bitBuf := bits }

/-- The smallest core, BYTECAP = 1, with bytes and bits in the buffers. -/
def tinyCore (bytes : List Byte) (bits : BitSeq) : State :=
  { State.reset with config := { bytecap := 1 }, byteBuf := bytes, bitBuf := bits }

/-- The state an outcome goes on with. -/
def after (o : Host.Outcome State Fault Refusal) : State :=
  match o with
  | .next t => t
  | .fault _ => State.reset
  | .refused _ => State.reset

/-- The response word of an outcome. -/
def answer (o : Host.Outcome State Fault Refusal) : Option RspWord :=
  match o with
  | .next t => t.rspWord
  | .fault _ => none
  | .refused _ => none

/-! ### WellFormed: a term for each check that the check refuses (30_encoding.md R64) -/

theorem test_wf_accepts_fset : Fields.wellFormed ⟨0x11, 0x61, 2⟩ = true := by decide

theorem test_wf_refuses_unassigned_op : Fields.wellFormed ⟨0x02, 0, 0⟩ = false := by decide

theorem test_wf_refuses_nonzero_a : Fields.wellFormed ⟨0x00, 1, 0⟩ = false := by decide

theorem test_wf_refuses_nonzero_d : Fields.wellFormed ⟨0x20, 0, 1⟩ = false := by decide

theorem test_wf_refuses_two_as_a_bit : Fields.wellFormed ⟨0x39, 2, 0⟩ = false := by decide

theorem test_wf_refuses_two_as_a_mode : Fields.wellFormed ⟨0x41, 2, 0⟩ = false := by decide

/-! ### Decoding: every constructor's word, written out from 30_encoding.md R60, R63, R68 -/

theorem test_decode_nop : Sys2Proof.decode 0x000000000000 = .ok .nop := by decide
theorem test_decode_rdsr : Sys2Proof.decode 0x010000000005 = .ok (.rdsr 5) := by decide
theorem test_decode_fclr : Sys2Proof.decode 0x100000000000 = .ok .fclr := by decide
theorem test_decode_fset : Sys2Proof.decode 0x11FFFFFFFFFE = .ok (.fset 0xFF 0xFFFFFFFE) := by decide
theorem test_decode_fget : Sys2Proof.decode 0x126100000000 = .ok (.fget 0x61) := by decide
theorem test_decode_build : Sys2Proof.decode 0x200000000000 = .ok .build := by decide
theorem test_decode_nget : Sys2Proof.decode 0x210000000001 = .ok (.nget 1) := by decide
theorem test_decode_clen : Sys2Proof.decode 0x226200000000 = .ok (.clen 0x62) := by decide
theorem test_decode_clrby : Sys2Proof.decode 0x300000000000 = .ok .clrby := by decide
theorem test_decode_pushby : Sys2Proof.decode 0x316100000000 = .ok (.pushby 0x61) := by decide
theorem test_decode_getby : Sys2Proof.decode 0x320000000002 = .ok (.getby 2) := by decide
theorem test_decode_clrbi : Sys2Proof.decode 0x380000000000 = .ok .clrbi := by decide
theorem test_decode_pushbi_0 : Sys2Proof.decode 0x390000000000 = .ok (.pushbi false) := by decide
theorem test_decode_pushbi_1 : Sys2Proof.decode 0x390100000000 = .ok (.pushbi true) := by decide
theorem test_decode_getbi : Sys2Proof.decode 0x3A0000000003 = .ok (.getbi 3) := by decide
theorem test_decode_encode : Sys2Proof.decode 0x400000000000 = .ok .encode := by decide
theorem test_decode_decode : Sys2Proof.decode 0x410000000000 = .ok .decode := by decide
theorem test_decode_decodes : Sys2Proof.decode 0x410100000000 = .ok .decodes := by decide
theorem test_decode_unpack : Sys2Proof.decode 0x480000000000 = .ok .unpack := by decide
theorem test_decode_pack : Sys2Proof.decode 0x490000000000 = .ok .pack := by decide

/-- V-X1, V-X3, V-X4, V-X5, V-X6. -/
theorem test_decode_refuses_by_name :
    Sys2Proof.decode 0x020000000000 = .error .unassignedOp ∧
    Sys2Proof.decode 0x000100000000 = .error .nonzeroA ∧
    Sys2Proof.decode 0x200000000001 = .error .nonzeroD ∧
    Sys2Proof.decode 0x390200000000 = .error .bitOutOfRange ∧
    Sys2Proof.decode 0x410200000000 = .error .modeOutOfRange := by decide

/-- R67: LOADF is FCLR and then one FSET for each pair, in the order written. -/
theorem test_pseudo_loadf : Pseudo.expand (.loadf [(0x61, 2), (0x62, 1)]) =
    [.fclr, .fset 0x61 2, .fset 0x62 1] := by decide

theorem test_table_word : decodeTableWord 48 0x116100000002 = some (.fset 0x61 2) := by decide

/-! ### The notation of programs (30_encoding.md R66, R67, R68) -/

/-- A command, its expected response and a comment. -/
theorem test_line_fset : Assembler.line "FSET 'a', 2 => OK(0, 1) ; weight".toList =
    some ⟨[.fset 0x61 2], some 0x000000000001⟩ := by decide

/-- The response of R68's last row, and numbers in three bases. -/
theorem test_line_numbers : Assembler.line "FSET 0xFF, 0b101 => UnknownSymbol('d', 2)".toList =
    some ⟨[.fset 0xFF 5], some 0x026400000002⟩ := by decide

theorem test_line_loadf : Assembler.line [Char.ofNat 0x4C, 'O', 'A', 'D', 'F', Assembler.openBrace,
    '\'', 'a', '\'', ':', '2', ',', ' ', '9', ':', '1', Assembler.closeBrace] =
    some ⟨[.fclr, .fset 0x61 2, .fset 9 1], none⟩ := by decide

/-- A bit operand of 2 is no command. -/
theorem test_line_refuses : Assembler.line "PUSHBI 2".toList = none := by decide

/-- The words of R68 for two lines and a pseudo-command. -/
theorem test_program : Assembler.program ["BUILD".toList, "PUSHBITS 10".toList] =
    some [0x200000000000, 0x390100000000, 0x390000000000] := by decide

/-! ### One command at a time -/

/-- V-H1. -/
theorem test_nop : answer (exec .nop State.reset) = some 0x000000000000 := by decide

/-- V-H4. -/
theorem test_rdsr_bitcap : answer (exec (.rdsr 7) State.reset) = some 0x000000008000 := by decide

/-- V-H5. -/
theorem test_rdsr_out_of_range : answer (exec (.rdsr 8) State.reset) = some 0x070000000008 := by
  decide

/-- R82's example, and the tree stays (R194). -/
theorem test_fclr_keeps_the_tree :
    let t := after (exec .fclr (abcTree [] []))
    t.freq = [] ∧ t.tvalid = true ∧ t.rspWord = some 0x000000000000 := by decide

/-- R83's example: an FSET of a present symbol replaces its weight and leaves the count. -/
theorem test_fset_overwrites :
    let t := after (exec (.fset 0x61 7) { State.reset with freq := [(0x61, 2), (0x62, 1)] })
    t.weight 0x61 = 7 ∧ t.weight 0x62 = 1 ∧ t.rspWord = some 0x000000000002 := by decide

/-- V-H11. -/
theorem test_fset_largest : answer (exec (.fset 0xFF 0xFFFFFFFF)
    { State.reset with freq := [(0x61, 7)] }) = some 0x000000000002 := by decide

/-- V-H8: present with weight 0. -/
theorem test_fget_zero_weight :
    answer (exec (.fget 0x61) { State.reset with freq := [(0x61, 0)] }) = some 0x000100000000 := by
  decide

/-- V-H6: absent. -/
theorem test_fget_absent : answer (exec (.fget 0x61) State.reset) = some 0x000000000000 := by decide

/-- V-B1: the arena, the root, the count and the codes. -/
theorem test_build_abc : (after (exec .build abcTable)).node = [⟨0x062, 0x063⟩, ⟨0x061, 0x100⟩] ∧
    (after (exec .build abcTable)).root = 0x101 ∧
    (after (exec .build abcTable)).code =
      [(0x61, [false]), (0x62, [true, false]), (0x63, [true, true])] ∧
    answer (exec .build abcTable) = some 0x000000000003 := by decide

/-- V-B8: the largest weights need 33 bits, and an equal-weight leaf goes before a node. -/
theorem test_build_large_weights :
    (after (exec .build { State.reset with
      freq := [(0x00, 0xFFFFFFFF), (0x07, 0), (0xFF, 0xFFFFFFFF)] })).node =
        [⟨0x007, 0x000⟩, ⟨0x0FF, 0x100⟩] := by decide

/-- V-H26. -/
theorem test_nget_root : answer (exec (.nget 1) (abcTree [] [])) = some 0x000000610100 := by decide

/-- V-H28: no internal node exists. -/
theorem test_nget_single_leaf : answer (exec (.nget 0) (xTree [])) = some 0x070000000000 := by decide

/-- V-H27. -/
theorem test_clen : answer (exec (.clen 0x62) (abcTree [] [])) = some 0x000200000000 := by decide

/-- V-H27: no code is not an error. -/
theorem test_clen_no_code : answer (exec (.clen 0x7A) (abcTree [] [])) = some 0x000000000000 := by
  decide

/-- R87: BYTELEN is 0 afterwards. -/
theorem test_clrby : (after (exec .clrby (abcTree [0x61] []))).bytelen = 0 := by decide

/-- R88's example: the last byte of "aab". -/
theorem test_pushby : answer (exec (.pushby 0x62) (abcTree [0x61, 0x61] [])) =
    some 0x000000000003 := by decide

/-- V-H24. -/
theorem test_pushby_full : answer (exec (.pushby 0x61) (tinyCore [0x61] [])) =
    some 0x060000000002 := by decide

/-- R89's example. -/
theorem test_getby : answer (exec (.getby 2) (abcTree [0x61, 0x61, 0x62] [])) =
    some 0x006200000000 := by decide

/-- V-H23. -/
theorem test_getby_out_of_range : answer (exec (.getby 0xFFFFFFFF) State.reset) =
    some 0x0700FFFFFFFF := by decide

/-- R90: BITLEN is 0 afterwards. -/
theorem test_clrbi : (after (exec .clrbi (abcTree [] [true]))).bitlen = 0 := by decide

/-- R91's example: the last bit of `0010` goes to the end. -/
theorem test_pushbi : (after (exec (.pushbi false) (abcTree [] [false, false, true]))).bitBuf =
    [false, false, true, false] := by decide

/-- V-H25: the ninth bit. -/
theorem test_pushbi_full :
    answer (exec (.pushbi false) (tinyCore [] (List.replicate 8 false))) = some 0x060000000009 := by
  decide

/-- R92's example. -/
theorem test_getbi : answer (exec (.getbi 2) (abcTree [] [false, false, true, false])) =
    some 0x000100000000 := by decide

/-- V-H16. -/
theorem test_getbi_empty : answer (exec (.getbi 0) State.reset) = some 0x070000000000 := by decide

/-- V-E1. -/
theorem test_encode_aab : (after (exec .encode (abcTree [0x61, 0x61, 0x62] [true]))).bitBuf =
    [false, false, true, false] := by decide

/-- V-E3: the first symbol with no code, and nothing written. -/
theorem test_encode_unknown : exec .encode (abcTree [0x61, 0x62, 0x64] [true]) =
    .next ((abcTree [0x61, 0x62, 0x64] [true]).withResponse 0x026400000002) := by rfl

/-- V-D2 and V-D4: no spurious symbol at a leaf boundary; one virtual 0 bit completes the last. -/
theorem test_decode_flush :
    (after (exec .decode (abcTree [] [false, false, true, false]))).byteBuf = [0x61, 0x61, 0x62] ∧
    (after (exec .decode (abcTree []
      [true, false, true, false, false, true, false, true]))).byteBuf =
        [0x62, 0x62, 0x61, 0x62, 0x62] := by decide

/-- V-D9: on a single leaf the bit's value is ignored. -/
theorem test_decode_single_leaf :
    (after (exec .decode (xTree [true, false, true]))).byteBuf = [0x78, 0x78, 0x78] := by decide

/-- V-D4: the index where the unfinished code began. -/
theorem test_decodes_incomplete :
    answer (exec .decodes (abcTree [] [true, false, true, false, false, true, false, true])) =
      some 0x040000000007 := by decide

/-- V-D17: the command's own error outranks capacity; and in flush mode the capacity error. -/
theorem test_decodes_error_order :
    let s := { abcTree [] [false, false, true] with config := { bytecap := 1 } }
    answer (exec .decodes s) = some 0x040000000002 ∧ answer (exec .decode s) = some 0x060000000003 := by
  decide

/-- V-P4. -/
theorem test_unpack : (after (exec .unpack (abcTree [0xA5, 0x3C] []))).bitBuf =
    [true, false, true, false, false, true, false, true,
      false, false, true, true, true, true, false, false] := by decide

/-- V-P11. -/
theorem test_pack : (after (exec .pack (abcTree []
    [true, false, false, true, true, false, false, false]))).byteBuf = [0x98] := by decide

/-- V-P8. -/
theorem test_pack_unaligned : answer (exec .pack (abcTree [] [true, true, false])) =
    some 0x030300000003 := by decide

/-! ### One step at a time -/

/-- V-X8: an illegal word is answered with its OP and D fields. -/
theorem test_step_illegal : answer (step (running 0xFFFFFFFFFFFF)) = some 0x08FFFFFFFFFF := by decide

/-- V-X12: an illegal word outranks NoTree. -/
theorem test_step_illegal_before_no_tree : answer (step (running 0x400100000000)) =
    some 0x084000000000 := by decide

theorem test_step_with_fetch_word :
    answer (step (State.reset.withFetchWord 48 0x116100000002)) = some 0x000000000001 := by decide

/-- R191: reset at an edge abandons the command in progress. -/
theorem test_step_reset : step { running 0x116100000002 with
    pins := [{ quietPins with rst := true }] } = .next State.reset := by rfl

/-! ### Witnesses: a concrete state and operands that meet the hypotheses of each statement -/

theorem abcTree_tree (bytes : List Byte) (bits : BitSeq) : TreeInv (abcTree bytes bits) where
  nsym_range := (by decide : 1 ≤ (3 : BitVec 9).toNat ∧ (3 : BitVec 9).toNat ≤ 256)
  node_length := rfl
  root_ref := (by decide : (abcTree [] []).root = if (abcTree [] []).nsym.toNat = 1
    then leafref (sym (abcTree [] []).root) else intref ((abcTree [] []).nsym.toNat - 2))
  children_lower := (by decide : ∀ k < 2, ∀ b : Bool,
    isInt (child [⟨0x062, 0x063⟩, ⟨0x061, 0x100⟩] (intref k) b) = true →
      idx (child [⟨0x062, 0x063⟩, ⟨0x061, 0x100⟩] (intref k) b) < k)
  refs_once := (by decide : (treeRefs [⟨0x062, 0x063⟩, ⟨0x061, 0x100⟩] 0x101).Nodup)
  refs_all := (by decide : ∀ k < 2, intref k ∈ treeRefs [⟨0x062, 0x063⟩, ⟨0x061, 0x100⟩] 0x101)
  code_count := rfl
  code_leaf := (by decide : ∀ e ∈ (abcTree [] []).code,
    leafref e.1 ∈ treeRefs (abcTree [] []).node (abcTree [] []).root)
  leaf_code := (by decide : ∀ r ∈ treeRefs (abcTree [] []).node (abcTree [] []).root,
    isLeaf r = true → (abcTree [] []).codeValid (sym r) = true)
  code_path := (by decide : ∀ e ∈ (abcTree [] []).code,
    if (abcTree [] []).nsym.toNat = 1 then e.2 = [false]
    else follow (abcTree [] []).node (abcTree [] []).root e.2 = some (leafref e.1))
  code_length := (by decide : ∀ e ∈ (abcTree [] []).code, 1 ≤ e.2.length ∧ e.2.length ≤ 255)

/-- The invariant holds of a state with a tree of three leaves. -/
theorem abcTree_inv {bytes : List Byte} {bits : BitSeq} (hb : bytes.length ≤ 4096)
    (hi : bits.length ≤ 32768) : CoreInv (abcTree bytes bits) where
  config_legal := (by decide : Config.standard.legal)
  memory_wf := ⟨(by decide : Table.wf abcTable.freq), (by decide : Table.wf (abcTree [] []).code),
    (by decide : 2 ≤ 255), hb, hi⟩
  no_tree := nofun
  tree := fun _ => abcTree_tree bytes bits
  response := nofun

theorem xTree_tree (bits : BitSeq) : TreeInv (xTree bits) where
  nsym_range := (by decide : 1 ≤ (1 : BitVec 9).toNat ∧ (1 : BitVec 9).toNat ≤ 256)
  node_length := rfl
  root_ref := (by decide : (xTree []).root = if (xTree []).nsym.toNat = 1
    then leafref (sym (xTree []).root) else intref ((xTree []).nsym.toNat - 2))
  children_lower := nofun
  refs_once := (by decide : (treeRefs [] 0x078).Nodup)
  refs_all := nofun
  code_count := rfl
  code_leaf := (by decide : ∀ e ∈ (xTree []).code, leafref e.1 ∈ treeRefs [] 0x078)
  leaf_code := (by decide : ∀ r ∈ treeRefs [] 0x078, isLeaf r = true → (xTree []).codeValid (sym r) = true)
  code_path := (by decide : ∀ e ∈ (xTree []).code, if (xTree []).nsym.toNat = 1 then e.2 = [false]
    else follow (xTree []).node (xTree []).root e.2 = some (leafref e.1))
  code_length := (by decide : ∀ e ∈ (xTree []).code, 1 ≤ e.2.length ∧ e.2.length ≤ 255)

/-- The invariant holds of a state with a tree of one leaf. -/
theorem xTree_inv {bits : BitSeq} (hi : bits.length ≤ 32768) : CoreInv (xTree bits) where
  config_legal := (by decide : Config.standard.legal)
  memory_wf := ⟨(by decide : Table.wf (xTree []).freq), (by decide : Table.wf (xTree []).code),
    (by decide : 0 ≤ 255), (by decide : 0 ≤ 4096), hi⟩
  no_tree := nofun
  tree := fun _ => xTree_tree bits
  response := nofun

/-- The invariant holds of a core in IDLE with no tree. -/
theorem tinyCore_inv : CoreInv (tinyCore [] []) :=
  ⟨by decide, by decide, by decide, nofun, nofun⟩

/-- A core in RESP. -/
def answering (ready : Bool) : State :=
  { State.reset with phase := .resp, pins := [{ quietPins with rspReady := ready }] }

/-- A core in IDLE with a command word on the pins. -/
def presented (valid : Bool) (w : CmdWord) : State :=
  { State.reset with pins := [{ quietPins with cmdValid := valid, cmdWord := w }] }

theorem witness_DecodeFollowsTheOpcodeTable :
    (∃ r ∈ opcodeTable, ∃ r' ∈ opcodeTable, r.covers 0x200000000000 = true ∧
      r'.covers 0x200000000000 = true) ∧
    Sys2Proof.decode 0x200000000000 = .ok .build := by decide

theorem witness_StepRunsTheDecodedCommand : (running 0x116100000002).phase = .busy 0x116100000002 0 ∧
    (running 0x116100000002).pinsNow.rst = false ∧
    Sys2Proof.decode 0x116100000002 = .ok (.fset 0x61 2) := by decide

theorem witness_StepAnswersIllegalCommand :
    (running 0x390200000000).phase = .busy 0x390200000000 0 ∧
    (running 0x390200000000).pinsNow.rst = false ∧
    ∀ r ∈ opcodeTable, r.covers 0x390200000000 = false := by decide

theorem witness_IdleAcceptsAPresentedCommand : ∀ v,
    (presented v 0x200000000000).phase = .idle ∧ (presented v 0x200000000000).pinsNow.rst = false ∧
      (presented v 0x200000000000).pinsNow.cmdValid = v := by decide

theorem witness_NoCommandIsAcceptedOutsideIdle :
    (running 0x200000000000).phase ≠ .idle ∧ (answering true).phase ≠ .idle := by decide

theorem witness_ResponseIsHeldUntilTaken : ∀ ready,
    (answering ready).phase = .resp ∧ (answering ready).pinsNow.rst = false ∧
      (answering ready).pinsNow.rspReady = ready := by decide

/-- A core with a tree, in RESP, at an edge with reset. -/
def resetting : State :=
  { abcTree [] [] with phase := .resp, pins := [{ quietPins with rst := true }] }

theorem witness_ResetEdgeGivesTheResetState : resetting.pinsNow.rst = true ∧
    resetting.tvalid = true ∧
    ∃ t, step resetting = .next t ∧ t.tvalid = false := ⟨rfl, rfl, _, rfl, rfl⟩

theorem witness_AcceptedCommandIsAnswered : CoreInv (presented true 0x200000000000) ∧
    (presented true 0x200000000000).phase = .idle ∧
    (presented true 0x200000000000).pinsNow.rst = false ∧
    (presented true 0x200000000000).pinsNow.cmdValid = true ∧
    ∀ p ∈ (presented true 0x200000000000).pins, p.rst = false :=
  ⟨⟨by decide, by decide, by decide, nofun, nofun⟩, by decide, by decide, by decide, by decide⟩

theorem witness_ClockedCommandIsOneTransition : CoreInv (abcTree [0x61] [true]) ∧
    (abcTree [0x61] [true]).phase = .idle := ⟨abcTree_inv (by decide) (by decide), rfl⟩

theorem witness_EveryStepKeepsTheInvariant :
    CoreInv (abcTree [0x61] [true]) ∧ ∃ t, step (abcTree [0x61] [true]) = .next t :=
  ⟨abcTree_inv (by decide) (by decide), _, rfl⟩

theorem witness_EveryCommandAnswers : CoreInv (abcTree [0x61] [true]) :=
  abcTree_inv (by decide) (by decide)

theorem witness_ErroringCommandWritesNoState : ∃ t, exec .build State.reset = .next t ∧
    t.status ≠ 0x00 := ⟨_, rfl, by decide⟩

theorem witness_CommandsRaiseOnlyTheirErrors : ∃ t, exec .pack (abcTree [] [true]) = .next t ∧
    t.status ∈ mayRaise .pack := ⟨_, rfl, by decide⟩

theorem witness_CommandsWriteOnlyTheirState :
    (∃ t, exec .fclr (abcTree [] []) = .next t ∧ t.freq ≠ (abcTree [] []).freq) ∧
    (∃ t, exec .build abcTable = .next t ∧ t.tvalid ≠ abcTable.tvalid) ∧
    (∃ t, exec .clrby (abcTree [0x61] []) = .next t ∧ t.byteBuf ≠ (abcTree [0x61] []).byteBuf) ∧
    ∃ t, exec .clrbi (abcTree [] [true]) = .next t ∧ t.bitBuf ≠ (abcTree [] [true]).bitBuf :=
  ⟨⟨_, rfl, by decide⟩, ⟨_, rfl, by decide⟩, ⟨_, rfl, by decide⟩, ⟨_, rfl, by decide⟩⟩

theorem witness_TreeCommandsRaiseNoTree : needsTree .encode = true ∧ State.reset.tvalid = false ∧
    ∃ t, exec .encode State.reset = .next t ∧ t.status = 0x05 := ⟨rfl, rfl, _, rfl, by decide⟩

theorem witness_ReadsHaveNoSideEffect : onlyReads (.fget 0x61) = true ∧
    ∃ t, exec (.fget 0x61) abcTable = .next t := ⟨rfl, _, rfl⟩

theorem witness_TreeChangesOnlyByBuildAndReset : ∃ t, step (running 0x100000000000) = .next t ∧
    (running 0x100000000000).pinsNow.rst = false ∧
    ¬ ∃ w, (running 0x100000000000).phase = .busy w 0 ∧ Sys2Proof.decode w = .ok .build := by
  refine ⟨_, rfl, rfl, ?_⟩
  rintro ⟨w, hp, hd⟩
  obtain rfl : 0x100000000000 = w := (Phase.busy.inj hp).1
  revert hd
  decide

theorem witness_UnreadableStateIsNotObserved : abcTable.tvalid = false ∧
    (∃ t, exec .build abcTable = .next t ∧ t.tvalid = true) ∧
    ∃ t, exec .fclr abcTable = .next t ∧ t.tvalid = false :=
  ⟨rfl, ⟨_, rfl, by decide⟩, _, rfl, rfl⟩

theorem witness_StepKeepsTheParameter : ∃ t, step (presented true 0x200000000000) = .next t :=
  ⟨_, rfl⟩

theorem witness_RdsrReadsTheStatusRegisters : Table.wf abcTable.freq ∧ 7 < (8 : BitVec 32).toNat := by
  decide

theorem witness_FsetSetsOneWeight : Table.wf abcTable.freq ∧
    (0x61 : Symbol) ≠ 0x62 ∧ abcTable.present 0x61 = true ∧ abcTable.present 0x64 = false := by decide

/-- The last node, the first index past it, and no tree. -/
theorem witness_NgetReadsOneNode : CoreInv (abcTree [] []) ∧ (abcTree [] []).tvalid = true ∧
    (1 : BitVec 32).toNat < (abcTree [] []).nsym.toNat - 1 ∧
    (abcTree [] []).nsym.toNat - 1 ≤ (2 : BitVec 32).toNat ∧
    CoreInv (tinyCore [] []) ∧ (tinyCore [] []).tvalid = false :=
  ⟨abcTree_inv (by decide) (by decide), by decide, by decide, by decide, tinyCore_inv, by decide⟩

theorem witness_ClenReadsACodeLength : CoreInv (abcTree [] []) ∧ (abcTree [] []).tvalid = true ∧
    Table.read (abcTree [] []).code 0x63 = some [true, true] ∧
    Table.read (abcTree [] []).code 0x64 = none ∧
    CoreInv (tinyCore [] []) ∧ (tinyCore [] []).tvalid = false :=
  ⟨abcTree_inv (by decide) (by decide), by decide, by decide, by decide, tinyCore_inv, by decide⟩

/-- One cell free, and none. -/
theorem witness_PushbyAppendsOneByte :
    (tinyCore [] []).byteBuf.length ≠ (tinyCore [] []).config.bytecap ∧
    (tinyCore [0x61] []).byteBuf.length = (tinyCore [0x61] []).config.bytecap := by decide

/-- One cell free, and none. -/
theorem witness_PushbiAppendsOneBit :
    (tinyCore [] (List.replicate 7 true)).bitBuf.length ≠ 8 * (tinyCore [] []).config.bytecap ∧
    (tinyCore [] (List.replicate 8 true)).bitBuf.length = 8 * (tinyCore [] []).config.bytecap := by
  decide

/-- The last cell in use, and the first past it. -/
theorem witness_GetbyReadsOneByte :
    (abcTree [0x61, 0x62] []).byteBuf[(1 : BitVec 32).toNat]? = some 0x62 ∧
    (abcTree [0x61, 0x62] []).byteBuf.length ≤ (2 : BitVec 32).toNat := by decide

/-- The last cell in use, and the first past it. -/
theorem witness_GetbiReadsOneBit :
    (abcTree [] [false, true]).bitBuf[(1 : BitVec 32).toNat]? = some true ∧
    (abcTree [] [false, true]).bitBuf.length ≤ (2 : BitVec 32).toNat := by decide

theorem witness_BuildFailsOnAnEmptyTable : ∀ x, State.reset.present x = false := fun _ => rfl

/-- The hypotheses of the statements about a BUILD that succeeds. -/
theorem witness_BuildSucceedsOnANonemptyTable : Table.wf abcTable.freq ∧
    (∃ x, abcTable.present x = true) ∧ ∃ t, exec .build abcTable = .next t :=
  ⟨by decide, ⟨0x61, by decide⟩, _, rfl⟩

theorem witness_BuildMergesTheTwoLeastEntries : Table.wf abcTable.freq ∧
    ∃ x, abcTable.present x = true := ⟨by decide, 0x61, by decide⟩

theorem witness_QueueWeightsNeverOverflow : ∃ q nodes,
    Relation.ReflTransGen MergeStep (initialEntries abcTable, []) (q, nodes) := ⟨_, _, .refl⟩

theorem witness_BuildLeafSetIsTheSymbolSet : Table.wf abcTable.freq ∧
    (∃ x, abcTable.present x = true) ∧ ∃ t, exec .build abcTable = .next t :=
  witness_BuildSucceedsOnANonemptyTable

theorem witness_BuildCodebookIsPrefixFree : Table.wf abcTable.freq ∧
    (∃ x, abcTable.present x = true) ∧ ∃ t, exec .build abcTable = .next t ∧
    Table.read t.code 0x62 = some [true, false] ∧ Table.read t.code 0x63 = some [true, true] :=
  ⟨by decide, ⟨0x61, by decide⟩, _, rfl, by decide, by decide⟩

/-- Three leaves, and one. -/
theorem witness_BuildCodeLengthIsLeafDepth :
    (Table.wf abcTable.freq ∧ abcTable.present 0x61 = true ∧
      (∃ t, exec .build abcTable = .next t) ∧ 2 ≤ abcTable.presentCount) ∧
    (Table.wf (xTree []).freq ∧ (xTree []).present 0x78 = true ∧
      (∃ t, exec .build (xTree []) = .next t) ∧ (xTree []).presentCount = 1) :=
  have h : Table.wf abcTable.freq := by decide
  have h' : Table.wf (xTree []).freq := by decide
  ⟨⟨h, by decide, ⟨_, rfl⟩, Nat.le_of_lt (Nat.lt_of_lt_of_eq (by decide : 2 < abcTable.freq.length)
    (Table.length_eq_count h))⟩, h', by decide, ⟨_, rfl⟩, (Table.length_eq_count h').symm⟩

theorem witness_BuildOfOneSymbol : (xTree []).freq = [(0x78, 5)] := rfl

theorem witness_BuildIsOptimal : Table.wf abcTable.freq ∧ (∃ x, abcTable.present x = true) ∧
    (∃ t, exec .build abcTable = .next t) ∧
    IsCodeFor abcTable (fun x => if x = 0x61 then [false] else if x = 0x62 then [true, false]
      else [true, true]) := by
  refine ⟨by decide, ⟨0x61, by decide⟩, ⟨_, rfl⟩, fun x _ => ?_, fun x y hx hy hne => ?_⟩
  · dsimp only
    split
    · simp
    · split <;> simp
  · have key : ∀ x, abcTable.present x = true → x = 0x61 ∨ x = 0x62 ∨ x = 0x63 := by decide
    rcases key x hx with rfl | rfl | rfl <;> rcases key y hy with rfl | rfl | rfl <;>
      first | exact absurd rfl hne | decide

theorem witness_BuildDependsOnTheTableAlone : Table.wf abcTable.freq ∧
    Table.wf (abcTree [0x61] [true]).freq ∧ (∃ x, abcTable.present x = true) ∧
    (∀ x, abcTable.present x = (abcTree [0x61] [true]).present x ∧
      abcTable.weight x = (abcTree [0x61] [true]).weight x) ∧
    (∃ t, exec .build abcTable = .next t) ∧ ∃ t, exec .build (abcTree [0x61] [true]) = .next t :=
  ⟨by decide, by decide, ⟨0x61, by decide⟩, fun _ => ⟨rfl, rfl⟩, ⟨_, rfl⟩, _, rfl⟩

/-- A result that just fits, and one bit more. -/
theorem witness_EncodeConcatenatesTheCodes :
    ((abcTree [0x61, 0x62] []).tvalid = true ∧
      CodesOf (abcTree [0x61, 0x62] []) [0x61, 0x62] [[false], [true, false]] ∧
      [[false], [true, false]].flatten.length ≤ 8 * (abcTree [0x61, 0x62] []).config.bytecap) ∧
    (let s := { xTree [] with config := { bytecap := 1 }, byteBuf := List.replicate 9 0x78 }
     s.tvalid = true ∧ CodesOf s s.byteBuf (List.replicate 9 [false]) ∧
      8 * s.config.bytecap < (List.replicate 9 [false]).flatten.length) :=
  ⟨⟨rfl, rfl, by decide⟩, rfl, rfl, by decide⟩

theorem witness_EncodeReportsTheFirstUnknownSymbol :
    (abcTree [0x61, 0x62, 0x64, 0x78] []).tvalid = true ∧
    (abcTree [0x61, 0x62, 0x64, 0x78] []).byteBuf = [0x61, 0x62] ++ 0x64 :: [0x78] ∧
    (∀ y ∈ [0x61, 0x62], (abcTree [0x61, 0x62, 0x64, 0x78] []).codeValid y = true) ∧
    (abcTree [0x61, 0x62, 0x64, 0x78] []).codeValid 0x64 = false := by decide

theorem witness_EveryBitSequenceParsesOnce : CoreInv (abcTree [] [false, true]) ∧
    (abcTree [] [false, true]).tvalid = true ∧ 2 ≤ (abcTree [] [false, true]).nsym.toNat :=
  ⟨abcTree_inv (by decide) (by decide), by decide, by decide⟩

/-- A core with a capacity of one byte, a tree of three leaves and these bits. -/
def smallTree (bits : BitSeq) : State := { abcTree [] bits with config := { bytecap := 1 } }

/-- The invariant holds of a core with a capacity of one byte. -/
theorem smallTree_inv {bits : BitSeq} (hi : bits.length ≤ 8) : CoreInv (smallTree bits) :=
  have h : CoreInv (abcTree [] bits) := abcTree_inv (by decide) (by omega)
  { config_legal := (by decide : Config.legal { bytecap := 1 })
    memory_wf := ⟨h.memory_wf.1, h.memory_wf.2.1, h.memory_wf.2.2.1, (by decide : 0 ≤ 1), hi⟩
    no_tree := nofun
    tree := fun _ => { h.tree rfl with }
    response := nofun }

/-- No tail, and a tail of one bit, with a result that fits; then both with a result of one symbol more
than BYTECAP. -/
theorem witness_DecodeReturnsTheGreedyParse :
    (CoreInv (smallTree [false, false]) ∧ (smallTree [false, false]).tvalid = true ∧
      2 ≤ (smallTree [false, false]).nsym.toNat ∧ CoreInv (smallTree [false, true]) ∧
      Parses (smallTree [false, false]) [false, false] [0x61, 0x61] [] ∧
      Parses (smallTree [false, true]) [false, true] [0x61] [true] ∧
      (smallTree []).config.bytecap < ([0x61, 0x61] : List Symbol).length) ∧
    CoreInv (abcTree [] [false, true]) ∧ (abcTree [] [false, true]).tvalid = true ∧
    2 ≤ (abcTree [] [false, true]).nsym.toNat ∧
    Parses (abcTree [] [false, true]) [false, true] [0x61] [true] ∧
    Parses (abcTree [] [false]) [false] [0x61] [] :=
  ⟨⟨smallTree_inv (by decide), by decide, by decide, smallTree_inv (by decide),
      ⟨⟨[[false], [false]], rfl, rfl⟩, 0x62, [true, false], by decide, by decide, by decide⟩,
      ⟨⟨[[false]], rfl, rfl⟩, 0x62, [true, false], by decide, by decide, by decide⟩, by decide⟩,
    abcTree_inv (by decide) (by decide), by decide, by decide,
    ⟨⟨[[false]], rfl, rfl⟩, 0x62, [true, false], by decide, by decide, by decide⟩,
    ⟨[[false]], rfl, rfl⟩, 0x62, [true, false], by decide, by decide, by decide⟩

/-- A result that fits, and one of a symbol more than BYTECAP. -/
theorem witness_DecodeOnASingleLeaf : ((xTree [true, false]).tvalid = true ∧
      (xTree [true, false]).root = leafref 0x78) ∧
    (let s := { xTree [true, false] with config := { bytecap := 1 } }
     s.tvalid = true ∧ s.root = leafref 0x78 ∧ s.config.bytecap < s.bitBuf.length) := by decide

/-- A result that fits, and one of a symbol more than BYTECAP, which `exec` answers 0x06. -/
theorem witness_FlushDecodeNeverRejects : (CoreInv (abcTree [] [true]) ∧
      (abcTree [] [true]).tvalid = true) ∧
    CoreInv (smallTree [false, true]) ∧ (smallTree [false, true]).tvalid = true ∧
    ∃ t, exec .decode (smallTree [false, true]) = .next t ∧ t.status = 0x06 :=
  ⟨⟨abcTree_inv (by decide) (by decide), by decide⟩, smallTree_inv (by decide), by decide,
    _, rfl, by decide⟩

theorem witness_DecodeInvertsEncode : CoreInv (abcTree [0x61, 0x62] []) ∧
    ∃ t, exec .encode (abcTree [0x61, 0x62] []) = .next t ∧ t.status = 0x00 :=
  ⟨abcTree_inv (by decide) (by decide), _, rfl, by decide⟩

theorem witness_TransformsArePure :
    (abcTree [0x61] []).code = { abcTree [0x61] [] with freq := [] }.code ∧
    (∃ t, exec .encode (abcTree [0x61] []) = .next t ∧ t.status = 0x00) ∧
    ∃ t, exec .decodes (abcTree [] [false]) = .next t ∧ t.status = 0x00 :=
  ⟨rfl, ⟨_, rfl, by decide⟩, _, rfl, by decide⟩

theorem witness_TreeIsASnapshotOfTheTable : needsTree .encode = true ∧
    ∃ t, exec .encode (abcTree [0x61] []) = .next t := ⟨rfl, _, rfl⟩

/-- A whole byte, and three bits. -/
theorem witness_PackIsMsbFirstAndAligned :
    (abcTree [] (List.replicate 8 true)).bitBuf.length % 8 = 0 ∧
    (abcTree [] (List.replicate 3 true)).bitBuf.length % 8 ≠ 0 := by decide

theorem witness_UnpackInvertsPack : (abcTree [] (List.replicate 8 true)).bitBuf.length % 8 = 0 := by
  decide

end Sys2Proof.Tests
end

section
/-! What no command writes: the parameter, the host's pins to come and the model's counter; and that a
step does not write the parameter either (00_scope.md R5, logs 1, 5 and 6). -/

namespace Sys2Proof.Machine

/-- A command's effect is on the core's own state alone. -/
theorem Effect.keeps_environment {i : Instr} {s u : State} (h : Effect i s u) :
    u.config = s.config ∧ u.pins = s.pins ∧ u.accepted = s.accepted := by
  cases i with
  | nop | rdsr | fget | nget | clen | getby | getbi | fclr | fset | clrby | clrbi | unpack =>
    obtain rfl := h
    exact ⟨rfl, rfl, rfl⟩
  | pushby | pushbi | pack =>
    obtain ⟨-, rfl⟩ := h
    exact ⟨rfl, rfl, rfl⟩
  | build =>
    obtain ⟨nodes, r, -, rfl⟩ := h
    exact ⟨rfl, rfl, rfl⟩
  | encode | decode | decodes =>
    obtain ⟨result, -, -, -, rfl⟩ := h
    exact ⟨rfl, rfl, rfl⟩

theorem exec_keeps_environment {i : Instr} {s t : State} (h : exec i s = .next t) :
    t.config = s.config ∧ t.pins = s.pins ∧ t.accepted = s.accepted := by
  cases exec_ends h with
  | raised e a d ht => subst ht; exact ⟨rfl, rfl, rfl⟩
  | responded u a d ht hu => subst ht; exact hu.keeps_environment

theorem runCommand_keeps_environment {w : CmdWord} {s t : State} (h : runCommand w s = .next t) :
    t.config = s.config ∧ t.pins = s.pins ∧ t.accepted = s.accepted := by
  obtain ⟨i, -, hi⟩ | ⟨-, rfl⟩ := runCommand_cases h
  · exact exec_keeps_environment hi
  · exact ⟨rfl, rfl, rfl⟩

/-- Settles O25: `step` uses up one edge's pins, and the edge itself, whichever of `step_cases` it is,
writes neither the parameter nor the pins. -/
theorem stepKeepsTheParameter : Obligations.StepKeepsTheParameter := by
  intro s t h
  obtain ⟨-, rfl⟩ | ⟨-, ⟨-, -, rfl⟩ | ⟨-, -, rfl⟩ | ⟨w, -, hw⟩ | ⟨w, n, -, rfl⟩ | ⟨-, -, rfl⟩ |
    ⟨-, -, rfl⟩⟩ := step_cases h
  case inr.inr.inr.inl =>
    obtain ⟨hconfig, hpins, -⟩ := runCommand_keeps_environment hw
    exact ⟨hconfig, hpins⟩
  all_goals exact ⟨rfl, rfl⟩

end Sys2Proof.Machine
end

section
/-! What a command leaves as it was, and that every step keeps the invariant of the core
(10_state.md R11 to R21). -/

namespace Sys2Proof.Machine

/-! ### The tree's registers and memories -/

/-- TVALID, NSYM, ROOT, NODE and CODE of `t` are those of `s`. -/
def SameTree (s t : State) : Prop :=
  t.tvalid = s.tvalid ∧ t.nsym = s.nsym ∧ t.root = s.root ∧ t.node = s.node ∧ t.code = s.code

theorem SameTree.refl (s : State) : SameTree s s := ⟨rfl, rfl, rfl, rfl, rfl⟩

/-- The invariant of a tree speaks of the tree's registers and memories alone. -/
theorem SameTree.treeInv {s t : State} (hst : SameTree s t) (h : TreeInv s) : TreeInv t := by
  obtain ⟨-, hnsym, hroot, hnode, hcode⟩ := hst
  obtain ⟨config, freq, tvalid, nsym, root, node, code, byteBuf, bitBuf, phase, rspreg, pins,
    accepted⟩ := t
  subst hnsym hroot hnode hcode
  exact { h with }

/-! ### What a command leaves as it was -/

/-- The effect of a command is on the state that R21 lists for it. -/
theorem Effect.writes_only {i : Instr} {s u : State} (h : Effect i s u) :
    (writesFreq i = false → u.freq = s.freq) ∧ (writesTree i = false → SameTree s u) ∧
    (writesBytes i = false → u.byteBuf = s.byteBuf) ∧
    (writesBits i = false → u.bitBuf = s.bitBuf) := by
  cases i with
  | nop | rdsr | fget | nget | clen | getby | getbi =>
    obtain rfl := h
    exact ⟨fun _ => rfl, fun _ => .refl _, fun _ => rfl, fun _ => rfl⟩
  | fclr | fset =>
    obtain rfl := h
    exact ⟨nofun, fun _ => .refl _, fun _ => rfl, fun _ => rfl⟩
  | build =>
    obtain ⟨nodes, r, -, rfl⟩ := h
    exact ⟨fun _ => rfl, nofun, fun _ => rfl, fun _ => rfl⟩
  | clrby =>
    obtain rfl := h
    exact ⟨fun _ => rfl, fun _ => .refl _, nofun, fun _ => rfl⟩
  | pushby | pack =>
    obtain ⟨-, rfl⟩ := h
    exact ⟨fun _ => rfl, fun _ => .refl _, nofun, fun _ => rfl⟩
  | decode | decodes =>
    obtain ⟨out, -, -, -, rfl⟩ := h
    exact ⟨fun _ => rfl, fun _ => .refl _, nofun, fun _ => rfl⟩
  | clrbi | unpack =>
    obtain rfl := h
    exact ⟨fun _ => rfl, fun _ => .refl _, fun _ => rfl, nofun⟩
  | pushbi =>
    obtain ⟨-, rfl⟩ := h
    exact ⟨fun _ => rfl, fun _ => .refl _, fun _ => rfl, nofun⟩
  | encode =>
    obtain ⟨acc, -, -, -, rfl⟩ := h
    exact ⟨fun _ => rfl, fun _ => .refl _, fun _ => rfl, nofun⟩

/-- A command that is no BUILD leaves the tree. -/
theorem exec_keeps_tree {i : Instr} {s t : State} (h : exec i s = .next t)
    (hi : writesTree i = false) : SameTree s t := by
  cases exec_ends h with
  | raised e a d ht => subst ht; exact .refl s
  | responded u a d ht hu =>
    subst ht
    obtain ⟨-, htree, -, -⟩ := hu.writes_only
    exact htree hi

theorem writesTree_eq_false {i : Instr} (hi : i ≠ .build) : writesTree i = false := by
  cases i with
  | build => exact absurd rfl hi
  | _ => rfl

theorem runCommand_keeps_tree {w : CmdWord} {s t : State} (h : runCommand w s = .next t)
    (hw : Sys2Proof.decode w ≠ .ok .build) : SameTree s t := by
  obtain ⟨i, hi, he⟩ | ⟨-, rfl⟩ := runCommand_cases h
  · exact exec_keeps_tree he (writesTree_eq_false fun hb => hw (hb ▸ hi))
  · exact .refl s

/-! ### The invariant -/

/-- Another phase, response word, pins and counter keep the invariant, if a response carries a status
code. -/
theorem CoreInv.withInterface {s : State} (h : CoreInv s) {phase : Phase} {rspreg : RspWord}
    (pins : List Pins) (accepted : Nat)
    (hr : phase = .resp → (fieldsOf rspreg).op.toNat ≤ 8) :
    CoreInv (s.withInterface phase rspreg pins accepted) where
  config_legal := h.config_legal
  memory_wf := h.memory_wf
  no_tree := h.no_tree
  tree := fun hv => SameTree.treeInv (.refl s) (h.tree hv)
  response := hr

/-- A state with a legal parameter, memories in form and no tree. -/
theorem CoreInv.of_no_tree {s : State} (hc : s.config.legal) (hm : Memory.wf s)
    (hv : s.tvalid = false) (hn : s.nsym = 0 ∧ s.root = 0) (hp : s.phase = .idle) : CoreInv s where
  config_legal := hc
  memory_wf := hm
  no_tree := fun _ => hn
  tree := fun ht => absurd (hv.symm.trans ht) Bool.false_ne_true
  response := fun hr => nomatch hp.symm.trans hr

/-- The effect of a command keeps the form and the capacities of the memories. -/
theorem Effect.keeps_memory {i : Instr} {s u : State} (h : Effect i s u) (hm : Memory.wf s) :
    Memory.wf u := by
  cases i with
  | nop | rdsr | fget | nget | clen | getby | getbi => obtain rfl := h; exact hm
  | fclr => obtain rfl := h; exact memory_wf_clearFreq hm
  | fset x w => obtain rfl := h; exact memory_wf_setWeight hm x w
  | build =>
    obtain ⟨nodes, r, hb, rfl⟩ := h
    exact memory_wf_commitTree hm (built_of_buildTree hm.1 hb)
  | clrby => obtain rfl := h; exact memory_wf_putBytes hm (Nat.zero_le _)
  | pushby b => obtain ⟨hb, rfl⟩ := h; exact memory_wf_pushByte hm hb b
  | clrbi => obtain rfl := h; exact memory_wf_putBits hm (Nat.zero_le _)
  | pushbi v => obtain ⟨hb, rfl⟩ := h; exact memory_wf_pushBit hm hb v
  | encode => obtain ⟨acc, -, -, hl, rfl⟩ := h; exact memory_wf_putBits hm hl
  | decode | decodes => obtain ⟨out, -, -, hl, rfl⟩ := h; exact memory_wf_putBytes hm hl
  | unpack => obtain rfl := h; exact memory_wf_unpack hm
  | pack => obtain ⟨h8, rfl⟩ := h; exact memory_wf_pack hm h8

/-- The effect of a command leaves a tree with its invariants, or none with NSYM and ROOT 0: BUILD
commits a tree built of FREQ, and no other command writes one. -/
theorem Effect.keeps_treeInv {i : Instr} {s u : State} (h : Effect i s u) (hs : CoreInv s) :
    (u.tvalid = false → u.nsym = 0 ∧ u.root = 0) ∧ (u.tvalid = true → TreeInv u) := by
  by_cases hi : i = .build
  · subst hi
    obtain ⟨nodes, r, hb, rfl⟩ := h
    have hw := hs.memory_wf.1
    exact ⟨nofun, fun _ => (built_of_buildTree hw hb).treeInv hw⟩
  · obtain ⟨-, htree, -, -⟩ := h.writes_only
    have hst := htree (writesTree_eq_false hi)
    have ⟨hv, hnsym, hroot, _, _⟩ := hst
    rw [hv, hnsym, hroot]
    exact ⟨hs.no_tree, fun ht => hst.treeInv (hs.tree ht)⟩

theorem CoreInv.withResponse {s : State} (h : CoreInv s) {w : RspWord}
    (hw : (fieldsOf w).op.toNat ≤ 8) : CoreInv (s.withResponse w) :=
  h.withInterface s.pins s.accepted fun _ => hw

/-- Every command keeps the invariant. -/
theorem exec_keeps_coreInv {i : Instr} {s t : State} (h : exec i s = .next t) (hs : CoreInv s) :
    CoreInv t := by
  cases exec_ends h with
  | raised e a d ht =>
    subst ht
    exact hs.withResponse (by simpa using e.code_range.2)
  | responded u a d ht hu =>
    subst ht
    obtain ⟨hno, htree⟩ := hu.keeps_treeInv hs
    obtain ⟨hconfig, -, -⟩ := hu.keeps_environment
    exact
      { config_legal := hconfig ▸ hs.config_legal
        memory_wf := hu.keeps_memory hs.memory_wf
        no_tree := hno
        tree := fun hv => SameTree.treeInv (.refl u) (htree hv)
        response := fun _ => by simp [okCode] }

/-- Every command word keeps the invariant. -/
theorem runCommand_keeps_coreInv {w : CmdWord} {s t : State} (h : runCommand w s = .next t)
    (hs : CoreInv s) : CoreInv t := by
  obtain ⟨i, -, he⟩ | ⟨-, rfl⟩ := runCommand_cases h
  · exact exec_keeps_coreInv he hs
  · exact hs.withResponse (by simpa using Error.code_range .illegalCommand |>.2)

/-- Settles O15. -/
theorem invariantHoldsAfterReset : Obligations.InvariantHoldsAfterReset :=
  .of_no_tree (by decide) reset_memory_wf rfl ⟨rfl, rfl⟩ rfl

/-- Settles O16: whichever of `step_cases` the step is, it writes only the interface, or runs a command
word, which keeps the invariant, or resets. -/
theorem everyStepKeepsTheInvariant : Obligations.EveryStepKeepsTheInvariant := by
  intro s t hs h
  have hpins : CoreInv s.pinsUsed := hs.withInterface s.pins.tail s.accepted hs.response
  obtain ⟨-, rfl⟩ | ⟨-, ⟨-, -, rfl⟩ | ⟨-, -, rfl⟩ | ⟨w, -, hw⟩ | ⟨w, n, -, rfl⟩ | ⟨-, -, rfl⟩ |
    ⟨-, -, rfl⟩⟩ := step_cases h
  · exact .of_no_tree hs.config_legal memory_wf_resetEdge rfl ⟨rfl, rfl⟩ rfl
  · exact hpins.withInterface _ _ nofun
  · exact hpins
  · exact runCommand_keeps_coreInv hw hpins
  · exact hpins.withInterface _ _ nofun
  · exact hpins.withInterface _ _ nofun
  · exact hpins

/-- Settles O20: an error writes the response alone, and `Effect.writes_only` says what a command that
answers OK leaves as it was. -/
theorem commandsWriteOnlyTheirState : Obligations.CommandsWriteOnlyTheirState := by
  intro i s t h
  have henv := exec_keeps_environment h
  cases exec_ends h with
  | raised e a d ht =>
    subst ht
    exact ⟨absurd rfl, absurd (SameTree.refl s), absurd rfl, absurd rfl, henv⟩
  | responded u a d ht hu =>
    have hok : t.status = 0x00 := by rw [ht, status_withResponse, okCode]
    obtain ⟨hfreq, htree, hbytes, hbits⟩ := hu.writes_only
    subst ht
    exact ⟨fun hn => ⟨eq_true_of_ne_false (mt hfreq hn), hok⟩,
      fun hn => ⟨eq_true_of_ne_false (mt htree hn), hok⟩,
      fun hn => ⟨eq_true_of_ne_false (mt hbytes hn), hok⟩,
      fun hn => ⟨eq_true_of_ne_false (mt hbits hn), hok⟩, henv⟩

/-- Settles O23: whichever of `step_cases` the step is, it writes only the interface or runs a command
word that is no BUILD. -/
theorem treeChangesOnlyByBuildAndReset : Obligations.TreeChangesOnlyByBuildAndReset := by
  intro s t h hrst hbuild
  obtain ⟨hr, -⟩ | ⟨-, ⟨-, -, rfl⟩ | ⟨-, -, rfl⟩ | ⟨w, hp, hw⟩ | ⟨w, n, -, rfl⟩ | ⟨-, -, rfl⟩ |
    ⟨-, -, rfl⟩⟩ := step_cases h
  case inl => exact absurd (hrst.symm.trans hr) Bool.false_ne_true
  case inr.inr.inr.inl =>
    exact runCommand_keeps_tree (s := s.pinsUsed) hw fun hd => hbuild ⟨w, hp, hd⟩
  all_goals exact SameTree.refl s

end Sys2Proof.Machine
end

section
/-! While there is no tree no command reads NODE or CODE, and no command reads RSPREG
(10_state.md R29). -/

namespace Sys2Proof.Machine

/-- The state with other contents of NODE, CODE and RSPREG. -/
def State.withUnreadable (s : State) (nodes : List NodeEntry) (codes : Table BitSeq) (w : RspWord) :
    State := { s with node := nodes, code := codes, rspreg := w }

/-- `o'`, from a state that holds `nodes` and `codes`, goes on as `o` does but for NODE and CODE: it
keeps them where there is no tree, and they are those of `o` where there is one. -/
def GoesUnread (nodes : List NodeEntry) (codes : Table BitSeq)
    (o o' : Host.Outcome State Fault Refusal) : Prop :=
  ∀ t, o = .next t → ∃ t', o' = .next t' ∧ { t' with node := t.node, code := t.code } = t ∧
    (t.tvalid = true → t' = t) ∧ (t.tvalid = false → t'.node = nodes ∧ t'.code = codes)

section
variable {s : State} {nodes : List NodeEntry} {codes : Table BitSeq} {w : RspWord}

@[simp] theorem State.withUnreadable_freq : (s.withUnreadable nodes codes w).freq = s.freq := rfl

@[simp] theorem State.withUnreadable_statusRegister (n : Nat) :
    (s.withUnreadable nodes codes w).statusRegister n = s.statusRegister n := rfl

@[simp] theorem State.withUnreadable_byteAt (i : Nat) :
    (s.withUnreadable nodes codes w).byteAt i = s.byteAt i := rfl

@[simp] theorem State.withUnreadable_bitAt (i : Nat) :
    (s.withUnreadable nodes codes w).bitAt i = s.bitAt i := rfl

theorem goesUnread_withResponse (hv : s.tvalid = false) (v : RspWord) :
    GoesUnread nodes codes (.next (s.withResponse v))
      (.next ((s.withUnreadable nodes codes w).withResponse v)) := by
  rintro t h
  cases h
  exact ⟨_, rfl, rfl, fun ht => absurd (hv.symm.trans ht) Bool.false_ne_true, fun _ => ⟨rfl, rfl⟩⟩

theorem goesUnread_respond (hv : s.tvalid = false) (a : BitVec 8) (d : BitVec 32) :
    GoesUnread nodes codes (respond a d s) (respond a d (s.withUnreadable nodes codes w)) :=
  goesUnread_withResponse hv _

theorem goesUnread_raise (hv : s.tvalid = false) (e : Error) (a : BitVec 8) (d : BitVec 32) :
    GoesUnread nodes codes (raise e a d s) (raise e a d (s.withUnreadable nodes codes w)) :=
  goesUnread_withResponse hv _

theorem goesUnread_ite {c : Prop} [Decidable c] {a b a' b' : Host.Outcome State Fault Refusal}
    (ha : GoesUnread nodes codes a a') (hb : GoesUnread nodes codes b b') :
    GoesUnread nodes codes (if c then a else b) (if c then a' else b') := by
  split <;> assumption

/-- A command that needs a tree reads nothing while there is none: it raises NoTree first. -/
theorem exec_of_no_tree {i : Instr} (hi : needsTree i = true) (hv : s.tvalid = false) :
    exec i s = raise .noTree 0 0 s := by
  cases i with
  | nget | clen | encode | decode | decodes => exact if_pos hv
  | _ => exact absurd hi Bool.false_ne_true

/-- A command does the same, while there is no tree, whatever NODE, CODE and RSPREG are. -/
theorem exec_withUnreadable (i : Instr) (hv : s.tvalid = false) :
    GoesUnread nodes codes (exec i s) (exec i (s.withUnreadable nodes codes w)) := by
  have hraise := goesUnread_raise (nodes := nodes) (codes := codes) (w := w) hv
  have hrespond := goesUnread_respond (nodes := nodes) (codes := codes) (w := w) hv
  cases i with
  | nget | clen | encode | decode | decodes =>
    rw [exec_of_no_tree rfl hv, exec_of_no_tree rfl (s := s.withUnreadable nodes codes w) hv]
    exact hraise _ _ _
  | nop => exact hrespond _ _
  | fclr => exact goesUnread_respond (s := { s with freq := [] }) hv _ _
  | fset x v => exact goesUnread_respond (s := s.setWeight x v) hv _ _
  | clrby => exact goesUnread_respond (s := s.putBytes []) hv _ _
  | clrbi => exact goesUnread_respond (s := s.putBits []) hv _ _
  | unpack => exact goesUnread_respond (s := s.putBits (bytesToBits s.byteBuf)) hv _ _
  | fget x => exact goesUnread_ite (hrespond _ _) (hrespond _ _)
  | pushby b => exact goesUnread_ite (hraise _ _ _) (goesUnread_respond (s := s.pushByte b) hv _ _)
  | pushbi v => exact goesUnread_ite (hraise _ _ _) (goesUnread_respond (s := s.pushBit v) hv _ _)
  | pack =>
    exact goesUnread_ite (hraise _ _ _)
      (goesUnread_respond (s := s.putBytes (bitsToBytes s.bitBuf)) hv _ _)
  | rdsr | getby | getbi =>
    simp only [exec, execRdsr, execGetby, execGetbi, State.withUnreadable_statusRegister,
      State.withUnreadable_byteAt, State.withUnreadable_bitAt]
    split
    · exact hraise _ _ _
    · exact hrespond _ _
  | build =>
    simp only [exec, execBuild, State.withUnreadable_freq]
    split
    · exact hraise _ _ _
    · rintro t h
      cases h
      exact ⟨_, rfl, rfl, fun _ => rfl, nofun⟩

end

/-- Settles O24. -/
theorem unreadableStateIsNotObserved : Obligations.UnreadableStateIsNotObserved :=
  fun i _ t _ _ _ hv h => exec_withUnreadable i hv t h

end Sys2Proof.Machine
end

section
/-! Every command answers, and the clocked core runs it as the one transition of its rule: accepted at
one edge, spending the free number of edges in BUSY, answered at the last of them, and taken at one
more (10_state.md R24, 30_encoding.md R69, 60_exceptions.md R184). -/

namespace Sys2Proof.Machine

/-! ### Every command answers -/

/-- An outcome that is a next state. -/
def Answers (o : Host.Outcome State Fault Refusal) : Prop := ∃ t, o = .next t

theorem answers_respond (a : BitVec 8) (d : BitVec 32) (s : State) :
    Answers (respond a d s) := ⟨_, rfl⟩

theorem answers_raise (e : Error) (a : BitVec 8) (d : BitVec 32) (s : State) :
    Answers (raise e a d s) := ⟨_, rfl⟩

theorem answers_ite {c : Prop} [Decidable c] {a b : Host.Outcome State Fault Refusal}
    (ha : Answers a) (hb : Answers b) : Answers (if c then a else b) := by
  split <;> assumption

/-- On a tree the walk of a decode command stays within its bound (44_decoder.md R153). -/
theorem runDecode_answers {s : State} (hs : CoreInv s) (m : DecodeMode) : Answers (runDecode m s) := by
  unfold runDecode
  split
  · exact answers_raise _ _ _ s
  · rename_i hv
    obtain ⟨-, hcode, -⟩ := hs.memory_wf
    have hbound := (hs.tree (eq_true_of_ne_false hv)).decodeBits_ne_unbounded hcode m s.bitBuf
    cases hd : decodeBits s.node s.root m s.bitBuf with
    | unbounded => exact absurd hd hbound
    | incomplete start => exact answers_raise _ _ _ s
    | done out => exact answers_ite (answers_raise _ _ _ s) (answers_respond _ _ _)

/-- Every command answers in a state with the invariant. -/
theorem exec_answers {s : State} (hs : CoreInv s) (i : Instr) : Answers (exec i s) := by
  cases i with
  | nop | fclr | fset | clrby | clrbi | unpack => exact answers_respond _ _ _
  | fget => exact answers_ite (answers_respond _ _ _) (answers_respond _ _ _)
  | pushby | pushbi | pack => exact answers_ite (answers_raise _ _ _ _) (answers_respond _ _ _)
  | nget =>
    exact answers_ite (answers_raise _ _ _ _)
      (answers_ite (answers_respond _ _ _) (answers_raise _ _ _ _))
  | decode | decodes => exact runDecode_answers hs _
  | rdsr | getby | getbi | build =>
    simp only [exec, execRdsr, execGetby, execGetbi, execBuild]
    split
    · exact answers_raise _ _ _ _
    · exact answers_respond _ _ _
  | clen x =>
    refine answers_ite (answers_raise _ _ _ s) ?_
    split <;> exact answers_respond _ _ _
  | encode =>
    refine answers_ite (answers_raise _ _ _ s) ?_
    split
    · exact answers_raise _ _ _ s
    · exact answers_ite (answers_raise _ _ _ s) (answers_respond _ _ _)

theorem runCommand_answers {s : State} (hs : CoreInv s) (w : CmdWord) : Answers (runCommand w s) := by
  unfold runCommand
  split
  · exact exec_answers hs _
  · exact answers_raise _ _ _ s

/-! ### One more clock edge -/

section
variable {s t : State}

theorem clockEdges_succ (h : step s = .next t) (k : Nat) :
    clockEdges (k + 1) s = clockEdges k t := by
  rw [clockEdges, h]

/-- At an edge at which the core presents no response the host takes none. -/
theorem observed_succ_of_no_response (h : step s = .next t) (hp : s.rspValid = false) (k : Nat) :
    observed (k + 1) s = observed k t := by
  rw [observed, h]
  simp [State.rspWord, hp]

/-- At an edge at which the host is ready and the core is in RESP it takes the response. -/
theorem observed_succ_of_taken (h : step s = .next t) (hr : s.pinsNow.rst = false)
    (hready : s.pinsNow.rspReady = true) (hp : s.rspValid = true) (k : Nat) :
    observed (k + 1) s = s.rspreg :: observed k t := by
  rw [observed, h]
  simp [State.rspWord, hp, hr, hready]

end

/-! ### From BUSY to the response taken -/

/-- The pins of a host that takes responses for `n` edges. -/
def takingPins (n : Nat) : List Pins := List.replicate n { quietPins with rspReady := true }

section
variable {s u : State} {w : CmdWord}

/-- In RESP, at an edge at which the host takes the response, the run ends in IDLE. -/
theorem run_of_resp (hp : u.phase = .resp) (hpins : u.pins = takingPins 1) :
    clockEdges 1 u = .next { u with phase := .idle, pins := [] } ∧ observed 1 u = [u.rspreg] := by
  have hnow : u.pinsNow = { quietPins with rspReady := true } := by rw [State.pinsNow, hpins]; rfl
  have hrst : u.pinsNow.rst = false := by rw [hnow]; rfl
  have hready : u.pinsNow.rspReady = true := by rw [hnow]
  have hstep : step u = .next { u with phase := .idle, pins := [] } := by
    rw [step_resp hrst hp, if_pos hready, State.responseTaken, State.pinsUsed, hpins]
    rfl
  refine ⟨clockEdges_succ hstep 0, observed_succ_of_taken hstep hrst hready ?_ 0⟩
  rw [State.rspValid, hp]
  rfl

/-- From BUSY, with `edges` to go, a host that takes responses gets the answer of the command word's
transition and no other. -/
theorem run_of_busy (h : runCommand w s = .next u) (edges : Nat) (rspreg : RspWord) (accepted : Nat) :
    clockEdges (edges + 2)
        (s.withInterface (.busy w edges) rspreg (takingPins (edges + 2)) accepted) =
      .next { u with phase := .idle, pins := [], accepted := accepted } ∧
    observed (edges + 2)
        (s.withInterface (.busy w edges) rspreg (takingPins (edges + 2)) accepted) = [u.rspreg] := by
  induction edges with
  | zero =>
    have hstep : step (s.withInterface (.busy w 0) rspreg (takingPins 2) accepted) =
        .next { u with pins := takingPins 1, accepted := accepted } := by
      rw [step_run rfl rfl]
      exact runCommand_withInterface (s := s) (phase := .busy w 0) (rspreg := rspreg) w u h
    have hresp : u.phase = .resp := runCommand_phase h
    rw [clockEdges_succ hstep, observed_succ_of_no_response hstep rfl]
    exact run_of_resp (u := { u with pins := takingPins 1, accepted := accepted }) hresp rfl
  | succ edges ih =>
    have hstep : step
        (s.withInterface (.busy w (edges + 1)) rspreg (takingPins (edges + 3)) accepted) =
        .next (s.withInterface (.busy w edges) rspreg (takingPins (edges + 2)) accepted) :=
      step_busy rfl rfl
    rw [clockEdges_succ hstep, observed_succ_of_no_response hstep rfl]
    exact ih

end

/-- Settles O14: the word is accepted at the first edge, and `run_of_busy` is the rest. -/
theorem clockedCommandIsOneTransition : Obligations.ClockedCommandIsOneTransition := by
  intro s w hs hp
  obtain ⟨u, hu⟩ := runCommand_answers hs w
  obtain ⟨hclock, hobs⟩ := run_of_busy hu (Config.busyEdges s.accepted) s.rspreg (s.accepted + 1)
  refine ⟨Config.busyEdges s.accepted + 2, u, hu, ?_⟩
  have hstep : step { s with pins := oneCommand w (Config.busyEdges s.accepted + 2) } =
      .next (s.withInterface (.busy w (Config.busyEdges s.accepted)) s.rspreg
        (takingPins (Config.busyEdges s.accepted + 2)) (s.accepted + 1)) :=
    step_idle rfl hp
  have hquiet : State.rspValid { s with pins := oneCommand w (Config.busyEdges s.accepted + 2) } =
      false := by
    rw [State.rspValid, hp]
    rfl
  rw [clockEdges_succ hstep, observed_succ_of_no_response hstep hquiet]
  exact ⟨hclock, hobs⟩

end Sys2Proof.Machine
end

section
/-! The status registers (10_state.md R26), the handshake outside IDLE (R24) and the values after reset
(R29). -/

namespace Sys2Proof.Machine

/-- RDSR of a register that is there (40_host_access.md R81). -/
theorem exec_rdsr_of_some {s : State} {n v : BitVec 32} (h : s.statusRegister n.toNat = some v) :
    exec (.rdsr n) s = .next (s.withResponse (responseWord 0x00 0 v)) := by
  rw [exec, execRdsr, indexOf, h]
  rfl

/-- RDSR of a register that is not there (40_host_access.md R81). -/
theorem exec_rdsr_of_none {s : State} {n : BitVec 32} (h : s.statusRegister n.toNat = none) :
    exec (.rdsr n) s = .next (s.withResponse (responseWord 0x07 0 n)) := by
  rw [exec, execRdsr, indexOf, h]
  rfl

/-- There are eight status registers (10_state.md R26). -/
theorem State.statusRegister_eq_none (s : State) {n : Nat} (h : 7 < n) : s.statusRegister n = none := by
  obtain ⟨k, rfl⟩ := Nat.exists_eq_add_of_le' h
  rfl

/-- FCOUNT counts the present symbols (10_state.md R10). -/
theorem State.fcount_eq_presentCount {s : State} (h : Table.wf s.freq) : s.fcount = s.presentCount :=
  Table.length_eq_count h

/-- Settles O27. -/
theorem rdsrReadsTheStatusRegisters : Obligations.RdsrReadsTheStatusRegisters := by
  intro s hw
  have htvalid : resultD s.tvalid.toNat = if s.tvalid then 1 else 0 := by cases s.tvalid <;> rfl
  have hfcount : resultD s.fcount = BitVec.ofNat 32 s.presentCount := by
    rw [resultD, State.fcount_eq_presentCount hw]
  exact ⟨exec_rdsr_of_some (congrArg some htvalid),
    exec_rdsr_of_some (congrArg some (BitVec.ofNat_toNat 32 _).symm),
    exec_rdsr_of_some (congrArg some (BitVec.ofNat_toNat 32 _).symm),
    exec_rdsr_of_some (congrArg some hfcount),
    exec_rdsr_of_some rfl, exec_rdsr_of_some rfl, exec_rdsr_of_some rfl, exec_rdsr_of_some rfl,
    fun n hn => exec_rdsr_of_none (s.statusRegister_eq_none hn)⟩

/-- Settles O9: in BUSY and RESP the edge reads `rst` and `rsp_ready` alone. -/
theorem noCommandIsAcceptedOutsideIdle : Obligations.NoCommandIsAcceptedOutsideIdle := by
  intro s hs p v w
  refine ⟨?_, beq_eq_false_iff_ne.2 hs⟩
  unfold clockEdge
  cases hp : s.phase with
  | idle => exact absurd hp hs
  | busy cmd edges => cases edges <;> rfl
  | resp => rfl

/-- Settles O12. -/
theorem stateAfterReset : Obligations.StateAfterReset :=
  ⟨fun _ => ⟨rfl, rfl⟩, rfl, rfl, rfl, rfl, rfl, rfl, rfl⟩

end Sys2Proof.Machine
end

section
/-! The commands that only read (20_memory.md R45), and the command a step runs (20_memory.md R43). -/

namespace Sys2Proof.Machine

/-- A command that only reads has no effect before its response. -/
theorem Effect.eq_of_onlyReads {i : Instr} {s u : State} (h : Effect i s u) (hi : onlyReads i = true) :
    u = s := by
  cases i with
  | rdsr | fget | nget | clen | getby | getbi => exact h
  | _ => exact absurd hi Bool.false_ne_true

/-- A command that only reads changes nothing but the response. -/
theorem exec_onlyReads {i : Instr} {s t : State} (hi : onlyReads i = true) (h : exec i s = .next t) :
    t = s.withResponse t.rspreg := by
  cases exec_ends h with
  | raised e a d ht => rw [ht]; rfl
  | responded u a d ht hu => rw [ht, hu.eq_of_onlyReads hi]; rfl

/-- A command does not read the response of the one before it. -/
theorem exec_withResponse {i : Instr} {s t : State} (w : RspWord) (h : exec i s = .next t) :
    exec i (s.withResponse w) = .next t := by
  obtain ⟨-, hpins, haccepted⟩ := exec_keeps_environment h
  have hgoes : exec i (s.withResponse w) = .next { t with pins := s.pins, accepted := s.accepted } :=
    exec_withInterface (phase := .resp) (rspreg := w) i t h
  rw [hgoes, ← hpins, ← haccepted]

/-- Settles O22: the state after a read is the state before it with another response, which the same
command does not read. -/
theorem readsHaveNoSideEffect : Obligations.ReadsHaveNoSideEffect := by
  intro i s t hi h
  have ht : t = s.withResponse t.rspreg := exec_onlyReads hi h
  have hrepeat : exec i (s.withResponse t.rspreg) = .next t := exec_withResponse t.rspreg h
  exact ⟨ht, ht ▸ hrepeat⟩

/-- A word that decodes runs as its command. -/
theorem runCommand_of_decode {w : CmdWord} {i : Instr} (h : Sys2Proof.decode w = .ok i) (s : State) :
    runCommand w s = exec i s := by
  rw [runCommand, h]

/-- Settles O6. -/
theorem stepRunsTheDecodedCommand : Obligations.StepRunsTheDecodedCommand := by
  intro s w i hp hr hd
  calc step s = runCommand w s.pinsUsed := step_run hr hp
    _ = exec i s.pinsUsed := runCommand_of_decode hd s.pinsUsed

end Sys2Proof.Machine
end

section
/-! Encoding (30_encoding.md): the decoder and the encoder undo each other, each row of the
opcode table is the set of words of one command (R63), and the decoder refuses exactly the illegal
words (R64). -/

namespace Sys2Proof

/-! ### The decoder and the encoder -/

/-- The decoder gives a command's own fields back as that command (R63). -/
theorem decodeFields_fields (i : Instr) : decodeFields i.fields = .ok i := by
  cases i with
  | pushbi v => cases v <;> rfl
  | _ => rfl

theorem decode_encode (i : Instr) : decode (encode i) = .ok i := by
  rw [decode, encode, fieldsOf_wordOf, decodeFields_fields]

/-- The command a word decodes to is the one it encodes (R60, R63). -/
theorem decode_eq_ok_iff {w : CmdWord} {i : Instr} : decode w = .ok i ↔ encode i = w := by
  constructor
  · intro h
    rw [encode, decodeFields_ok h, wordOf_fieldsOf]
  · rintro rfl
    exact decode_encode i

theorem decode_of_fields {w : CmdWord} {i : Instr} (h : fieldsOf w = i.fields) :
    decode w = .ok i := by
  rw [decode, h, decodeFields_fields]

/-- Settles O1. -/
theorem decodeOfEncodeIsTheCommand : Obligations.DecodeOfEncodeIsTheCommand := decode_encode

/-- Settles O4: each word is the encoding of the command beside it. -/
theorem specExampleWordsDecode : Obligations.SpecExampleWordsDecode := by
  refine ⟨?_, ?_, ?_, ?_, ?_, ?_, ?_, ?_, ?_, ?_, ?_, ?_, ?_, ?_, ?_, ?_, ?_⟩ <;>
    exact decode_eq_ok_iff.2 rfl

/-- Settles O5. -/
theorem responseWordLayout : Obligations.ResponseWordLayout := fun st a d =>
  ⟨extract_op st a d, extract_a st a d, extract_d st a d⟩

/-! ### The words a row of the opcode table covers -/

section
variable {mnemonic : String} {pattern w : CmdWord}

theorem and_byteMask (x : BitVec 8) : x &&& 0xFF = x := BitVec.and_allOnes

theorem and_wordMask (x : BitVec 32) : x &&& 0xFFFFFFFF = x := BitVec.and_allOnes

/-- A row whose mask has all eight bits of `OP` covers a word with its `OP`, and with its other
fields under the mask. -/
theorem fields_of_covers {mask : CmdWord} {a : BitVec 8} {d : BitVec 32}
    (hm : fieldsOf mask = ⟨0xFF, a, d⟩) (h : OpcodeRow.covers ⟨mnemonic, pattern, mask⟩ w = true) :
    (fieldsOf w).op = (fieldsOf pattern).op ∧ (fieldsOf w).a &&& a = (fieldsOf pattern).a ∧
      (fieldsOf w).d &&& d = (fieldsOf pattern).d := by
  obtain ⟨hop, ha, hd⟩ := (covers_iff _ w).1 h
  rw [hm] at hop ha hd
  exact ⟨(and_byteMask _).symm.trans hop, ha, hd⟩

theorem fieldsOf_of_covers_noOperand
    (h : OpcodeRow.covers ⟨mnemonic, pattern, 0xFFFFFFFFFFFF⟩ w = true) :
    fieldsOf w = ⟨(fieldsOf pattern).op, (fieldsOf pattern).a, (fieldsOf pattern).d⟩ := by
  obtain ⟨hop, ha, hd⟩ := fields_of_covers (a := 0xFF) (d := 0xFFFFFFFF) rfl h
  rw [← hop, ← ha, ← hd, and_byteMask, and_wordMask]

theorem fieldsOf_of_covers_operandD
    (h : OpcodeRow.covers ⟨mnemonic, pattern, 0xFFFF00000000⟩ w = true) :
    fieldsOf w = ⟨(fieldsOf pattern).op, (fieldsOf pattern).a, (fieldsOf w).d⟩ := by
  obtain ⟨hop, ha, -⟩ := fields_of_covers (a := 0xFF) (d := 0) rfl h
  rw [← hop, ← ha, and_byteMask]

theorem fieldsOf_of_covers_operandA
    (h : OpcodeRow.covers ⟨mnemonic, pattern, 0xFF00FFFFFFFF⟩ w = true) :
    fieldsOf w = ⟨(fieldsOf pattern).op, (fieldsOf w).a, (fieldsOf pattern).d⟩ := by
  obtain ⟨hop, -, hd⟩ := fields_of_covers (a := 0) (d := 0xFFFFFFFF) rfl h
  rw [← hop, ← hd, and_wordMask]

theorem fieldsOf_of_covers_operandAD
    (h : OpcodeRow.covers ⟨mnemonic, pattern, 0xFF0000000000⟩ w = true) :
    fieldsOf w = ⟨(fieldsOf pattern).op, (fieldsOf w).a, (fieldsOf w).d⟩ := by
  obtain ⟨hop, -, -⟩ := fields_of_covers (a := 0) (d := 0) rfl h
  rw [← hop]

/-- A field with its bits 7 to 1 zero is one bit (R62). -/
theorem lt_two_of_and_eq_zero : ∀ a : BitVec 8, a &&& 0xFE = 0 → a.toNat < 2 := by decide

/-- A row with one bit in `A` and a zero `A` in its `match`, as PUSHBI's. -/
theorem fieldsOf_of_covers_bit (hp : (fieldsOf pattern).a = 0)
    (h : OpcodeRow.covers ⟨mnemonic, pattern, 0xFFFEFFFFFFFF⟩ w = true) :
    fieldsOf w =
      ⟨(fieldsOf pattern).op, bitField ((fieldsOf w).a.getLsbD 0), (fieldsOf pattern).d⟩ := by
  obtain ⟨hop, ha, hd⟩ := fields_of_covers (a := 0xFE) (d := 0xFFFFFFFF) rfl h
  have hbit : (fieldsOf w).a.toNat < 2 := lt_two_of_and_eq_zero _ (ha.trans hp)
  rw [bitField_bit _ hbit, ← hop, ← hd, and_wordMask]

end

/-- A word that a row covers is the word of a command with the row's mnemonic (R63). -/
theorem exists_decode_of_covers {r : OpcodeRow} (hr : r ∈ opcodeTable) {w : CmdWord}
    (h : r.covers w = true) : ∃ i, decode w = .ok i ∧ i.mnemonic = r.mnemonic := by
  suffices hi : ∃ i : Instr, fieldsOf w = i.fields ∧ i.mnemonic = r.mnemonic by
    obtain ⟨i, hf, hm⟩ := hi
    exact ⟨i, decode_of_fields hf, hm⟩
  simp only [opcodeTable, List.mem_cons, List.not_mem_nil, or_false] at hr
  obtain rfl | rfl | rfl | rfl | rfl | rfl | rfl | rfl | rfl | rfl | rfl | rfl | rfl | rfl | rfl |
    rfl | rfl | rfl | rfl := hr
  · exact ⟨.nop, fieldsOf_of_covers_noOperand h, rfl⟩
  · exact ⟨.rdsr _, fieldsOf_of_covers_operandD h, rfl⟩
  · exact ⟨.fclr, fieldsOf_of_covers_noOperand h, rfl⟩
  · exact ⟨.fset _ _, fieldsOf_of_covers_operandAD h, rfl⟩
  · exact ⟨.fget _, fieldsOf_of_covers_operandA h, rfl⟩
  · exact ⟨.build, fieldsOf_of_covers_noOperand h, rfl⟩
  · exact ⟨.nget _, fieldsOf_of_covers_operandD h, rfl⟩
  · exact ⟨.clen _, fieldsOf_of_covers_operandA h, rfl⟩
  · exact ⟨.clrby, fieldsOf_of_covers_noOperand h, rfl⟩
  · exact ⟨.pushby _, fieldsOf_of_covers_operandA h, rfl⟩
  · exact ⟨.getby _, fieldsOf_of_covers_operandD h, rfl⟩
  · exact ⟨.clrbi, fieldsOf_of_covers_noOperand h, rfl⟩
  · exact ⟨.pushbi _, fieldsOf_of_covers_bit rfl h, rfl⟩
  · exact ⟨.getbi _, fieldsOf_of_covers_operandD h, rfl⟩
  · exact ⟨.encode, fieldsOf_of_covers_noOperand h, rfl⟩
  · exact ⟨.decode, fieldsOf_of_covers_noOperand h, rfl⟩
  · exact ⟨.decodes, fieldsOf_of_covers_noOperand h, rfl⟩
  · exact ⟨.unpack, fieldsOf_of_covers_noOperand h, rfl⟩
  · exact ⟨.pack, fieldsOf_of_covers_noOperand h, rfl⟩

/-- The word of a command is covered by the row that bears its mnemonic. -/
theorem encode_covered (i : Instr) :
    ∃ r ∈ opcodeTable, r.mnemonic = i.mnemonic ∧ r.covers (encode i) = true := by
  suffices h : Laws.EncodingRow.Statement i from h.2
  cases i with
  | nop => exact Laws.EncodingRow.nop
  | rdsr n => exact Laws.EncodingRow.rdsr n
  | fclr => exact Laws.EncodingRow.fclr
  | fset s w => exact Laws.EncodingRow.fset s w
  | fget s => exact Laws.EncodingRow.fget s
  | build => exact Laws.EncodingRow.build
  | nget k => exact Laws.EncodingRow.nget k
  | clen s => exact Laws.EncodingRow.clen s
  | clrby => exact Laws.EncodingRow.clrby
  | pushby b => exact Laws.EncodingRow.pushby b
  | getby k => exact Laws.EncodingRow.getby k
  | clrbi => exact Laws.EncodingRow.clrbi
  | pushbi v => exact Laws.EncodingRow.pushbi v
  | getbi k => exact Laws.EncodingRow.getbi k
  | encode => exact Laws.EncodingRow.encode
  | decode => exact Laws.EncodingRow.decode
  | decodes => exact Laws.EncodingRow.decodes
  | unpack => exact Laws.EncodingRow.unpack
  | pack => exact Laws.EncodingRow.pack

/-- A row is known by its mnemonic. -/
theorem row_eq_of_mnemonic : ∀ r ∈ opcodeTable, ∀ r' ∈ opcodeTable,
    r.mnemonic = r'.mnemonic → r = r' := by decide

/-- A row covers exactly the words of the commands with its mnemonic (R63). -/
theorem covers_iff_decode {r : OpcodeRow} (hr : r ∈ opcodeTable) {w : CmdWord} :
    r.covers w = true ↔ ∃ i, decode w = .ok i ∧ i.mnemonic = r.mnemonic := by
  refine ⟨exists_decode_of_covers hr, ?_⟩
  rintro ⟨i, hd, hm⟩
  obtain ⟨r', hr', hm', hc⟩ := encode_covered i
  rw [decode_eq_ok_iff.1 hd] at hc
  rwa [row_eq_of_mnemonic r hr r' hr' (hm.symm.trans hm'.symm)]

/-- Settles O2: two rows that cover one word bear the mnemonic of its command, and mnemonics are not
repeated. -/
theorem decodeFollowsTheOpcodeTable : Obligations.DecodeFollowsTheOpcodeTable := by
  refine ⟨?_, fun r hr w => covers_iff_decode hr, fun w i => decode_eq_ok_iff.1⟩
  intro r hr r' hr' w hc hc'
  obtain ⟨i, hd, hm⟩ := exists_decode_of_covers hr hc
  obtain ⟨i', hd', hm'⟩ := exists_decode_of_covers hr' hc'
  obtain rfl : i = i' := Except.ok.inj (hd.symm.trans hd')
  exact row_eq_of_mnemonic r hr r' hr' (hm.symm.trans hm')

/-! ### The words the decoder refuses

One lemma for each form of row: where an `OP` is assigned and its operands are those of the form,
the form refuses exactly what R64 lists. -/

section
variable {f : Fields} (hop : f.opAssigned = true)
include hop

theorem noOperand_refuses {i : Instr} (hA : f.hasA = false) (hBit : f.hasBitA = false)
    (hD : f.hasD = false) : (∃ e, noOperand f i = .error e) ↔ f.wellFormed = false := by
  simp [noOperand_error, Fields.wellFormed, Fields.aLegal, Fields.dLegal, hop, hA, hBit, hD]

theorem operandD_refuses {i : BitVec 32 → Instr} (hA : f.hasA = false) (hBit : f.hasBitA = false)
    (hD : f.hasD = true) : (∃ e, operandD f i = .error e) ↔ f.wellFormed = false := by
  simp [operandD_error, Fields.wellFormed, Fields.aLegal, Fields.dLegal, hop, hA, hBit, hD]

theorem operandA_refuses {i : BitVec 8 → Instr} (hA : f.hasA = true) (hD : f.hasD = false) :
    (∃ e, operandA f i = .error e) ↔ f.wellFormed = false := by
  simp [operandA_error, Fields.wellFormed, Fields.aLegal, Fields.dLegal, hop, hA, hD]

/-- FSET's form: whatever the operands, nothing is refused. -/
theorem operandAD_refuses {i : Instr} (hA : f.hasA = true) (hD : f.hasD = true) :
    (∃ e, (.ok i : Except Illegal Instr) = .error e) ↔ f.wellFormed = false := by
  simp [Fields.wellFormed, Fields.aLegal, Fields.dLegal, hop, hA, hD]

theorem operandBit_refuses {bad : Illegal} {i : Bool → Instr} (hA : f.hasA = false)
    (hBit : f.hasBitA = true) (hD : f.hasD = false) :
    (∃ e, operandBit f bad i = .error e) ↔ f.wellFormed = false := by
  have hlegal : f.aLegal = decide (f.a.toNat < 2) := by
    have hzero : f.a = 0 → f.a.toNat < 2 := fun ha => by rw [ha]; decide
    simpa [Fields.aLegal, hA, hBit] using hzero
  simp [operandBit_error, Fields.wellFormed, Fields.dLegal, hop, hlegal, hD]

end

/-- One test of `OP` in the decoder. -/
theorem refuses_ite {op code : BitVec 8} {x y : Except Illegal Instr} {q : Prop}
    (hx : op = code → ((∃ e, x = .error e) ↔ q))
    (hy : op.toNat ≠ code.toNat → ((∃ e, y = .error e) ↔ q)) :
    (∃ e, (if op = code then x else y) = .error e) ↔ q := by
  split
  · exact hx ‹_›
  · exact hy (mt BitVec.eq_of_toNat_eq ‹_›)

/-- The decoder refuses the fields that are not well formed (R64), row by row of the decoder. -/
theorem decodeFields_error_iff (f : Fields) :
    (∃ e, decodeFields f = .error e) ↔ f.wellFormed = false := by
  obtain ⟨op, a, d⟩ := f
  unfold decodeFields
  dsimp only
  refine refuses_ite (fun h => h ▸ noOperand_refuses rfl rfl rfl rfl) fun h00 => ?_
  refine refuses_ite (fun h => h ▸ operandD_refuses rfl rfl rfl rfl) fun h01 => ?_
  refine refuses_ite (fun h => h ▸ noOperand_refuses rfl rfl rfl rfl) fun h10 => ?_
  refine refuses_ite (fun h => h ▸ operandAD_refuses rfl rfl rfl) fun h11 => ?_
  refine refuses_ite (fun h => h ▸ operandA_refuses rfl rfl rfl) fun h12 => ?_
  refine refuses_ite (fun h => h ▸ noOperand_refuses rfl rfl rfl rfl) fun h20 => ?_
  refine refuses_ite (fun h => h ▸ operandD_refuses rfl rfl rfl rfl) fun h21 => ?_
  refine refuses_ite (fun h => h ▸ operandA_refuses rfl rfl rfl) fun h22 => ?_
  refine refuses_ite (fun h => h ▸ noOperand_refuses rfl rfl rfl rfl) fun h30 => ?_
  refine refuses_ite (fun h => h ▸ operandA_refuses rfl rfl rfl) fun h31 => ?_
  refine refuses_ite (fun h => h ▸ operandD_refuses rfl rfl rfl rfl) fun h32 => ?_
  refine refuses_ite (fun h => h ▸ noOperand_refuses rfl rfl rfl rfl) fun h38 => ?_
  refine refuses_ite (fun h => h ▸ operandBit_refuses rfl rfl rfl rfl) fun h39 => ?_
  refine refuses_ite (fun h => h ▸ operandD_refuses rfl rfl rfl rfl) fun h3A => ?_
  refine refuses_ite (fun h => h ▸ noOperand_refuses rfl rfl rfl rfl) fun h40 => ?_
  refine refuses_ite (fun h => h ▸ operandBit_refuses rfl rfl rfl rfl) fun h41 => ?_
  refine refuses_ite (fun h => h ▸ noOperand_refuses rfl rfl rfl rfl) fun h48 => ?_
  refine refuses_ite (fun h => h ▸ noOperand_refuses rfl rfl rfl rfl) fun h49 => ?_
  have hop : Fields.opAssigned ⟨op, a, d⟩ = false := by simp_all [Fields.opAssigned]
  simp [Fields.wellFormed, hop]

/-- Settles O3. -/
theorem decodeRefusesExactlyTheIllegalWords : Obligations.DecodeRefusesExactlyTheIllegalWords :=
  fun w => decodeFields_error_iff (fieldsOf w)

end Sys2Proof
end

section
/-! The handshake of 30_encoding.md R69: a command word taken in IDLE, a response held in RESP
until the host takes it. -/

namespace Sys2Proof.Machine

/-- Settles O8. -/
theorem idleAcceptsAPresentedCommand : Obligations.IdleAcceptsAPresentedCommand := by
  intro s hp hr
  refine ⟨fun hv => ⟨Config.busyEdges s.accepted, ?_⟩, fun hv => ?_⟩
  · rw [step_idle hr hp, if_pos hv]
    rfl
  · rw [step_idle hr hp, if_neg (Bool.eq_false_iff.1 hv)]

/-- Settles O10. -/
theorem responseIsHeldUntilTaken : Obligations.ResponseIsHeldUntilTaken := by
  intro s hp hr
  refine ⟨by simp [State.rspWord, State.rspValid, hp], fun hready => ?_, fun hready => ?_⟩
  · rw [step_resp hr hp, if_neg (Bool.eq_false_iff.1 hready)]
  · rw [step_resp hr hp, if_pos hready]
    rfl

end Sys2Proof.Machine
end

section
/-! The host access commands on the frequency table (40_host_access.md R80, R82 to R84): what FREQ
reads after FSET, and that the order of two FSETs does not matter. -/

namespace Sys2Proof.Machine

/-! ### Tables -/

/-- Writes of two symbols leave the same table in either order, since the table is in canonical form
after both. -/
theorem Table.write_comm {α : Type} {t : Table α} (ht : Table.wf t) {x y : Symbol} (hxy : x ≠ y)
    (v w : α) : Table.write (Table.write t x v) y w = Table.write (Table.write t y w) x v := by
  refine Table.ext_read (Table.wf_write y w (Table.wf_write x v ht))
    (Table.wf_write x v (Table.wf_write y w ht)) fun z => ?_
  simp only [Table.read_write]
  split
  case isTrue hz => rw [if_neg (hz ▸ hxy.symm)]
  case isFalse => rfl

/-! ### FREQ after a write -/

section
variable {s : State} (x : Symbol) (w : Weight)

@[simp] theorem State.setWeight_present_same : (s.setWeight x w).present x = true := by
  simp [State.present]

@[simp] theorem State.setWeight_weight_same : (s.setWeight x w).weight x = w := by
  simp [State.weight]

theorem State.setWeight_present_other {y : Symbol} (h : y ≠ x) :
    (s.setWeight x w).present y = s.present y := by
  rw [State.present, State.setWeight_freq, Table.read_write_other h, State.present]

theorem State.setWeight_weight_other {y : Symbol} (h : y ≠ x) :
    (s.setWeight x w).weight y = s.weight y := by
  rw [State.weight, State.setWeight_freq, Table.read_write_other h, State.weight]

theorem State.setWeight_fcount_eq_presentCount (h : Table.wf s.freq) :
    (s.setWeight x w).fcount = (s.setWeight x w).presentCount :=
  State.fcount_eq_presentCount (Table.wf_write x w h)

/-- A symbol is counted once. -/
theorem State.setWeight_presentCount (h : Table.wf s.freq) :
    (s.setWeight x w).presentCount = s.presentCount + if s.present x then 0 else 1 := by
  rw [← State.setWeight_fcount_eq_presentCount x w h, ← State.fcount_eq_presentCount h]
  exact Table.length_write x w h

/-- FSET answers the count after the write (40_host_access.md R83). -/
theorem exec_fset (h : Table.wf s.freq) :
    exec (.fset x w) s = .next ((s.setWeight x w).withResponse
      (responseWord 0x00 0 (BitVec.ofNat 32 (s.setWeight x w).presentCount))) := by
  rw [← State.setWeight_fcount_eq_presentCount x w h]
  rfl

end

/-- Settles O29: the one write goes to FREQ, where `Table.write` says what is read and counted after
it, and two writes of different symbols commute. -/
theorem fsetSetsOneWeight : Obligations.FsetSetsOneWeight := by
  refine ⟨fun s x w hw => ⟨_, exec_fset x w hw, ?_, ?_, fun y hy => ⟨?_, ?_⟩, ?_, rfl⟩,
    fun s x y v w hw hxy => ⟨_, _, _, _, rfl, rfl, rfl, rfl, Table.write_comm hw hxy v w⟩⟩
  · exact State.setWeight_present_same x w
  · exact State.setWeight_weight_same x w
  · exact State.setWeight_present_other x w hy
  · exact State.setWeight_weight_other x w hy
  · exact State.setWeight_presentCount x w hw

/-- Settles O26. -/
theorem nopAnswersZero : Obligations.NopAnswersZero := fun _ => rfl

/-- Settles O28. -/
theorem fclrEmptiesTheTable : Obligations.FclrEmptiesTheTable :=
  fun _ => ⟨_, rfl, fun _ => ⟨rfl, rfl⟩, rfl⟩

/-- Settles O30. -/
theorem fgetReadsOneEntry : Obligations.FgetReadsOneEntry := by
  intro s x
  rw [exec, execFget]
  split <;> rfl

end Sys2Proof.Machine
end

section
/-! Reading back the tree and the codebook (40_host_access.md R85, R86): the fields of a node as a
result, and a code's length as an 8-bit one. -/

namespace Sys2Proof.Machine

/-! ### NGET -/

theorem nodeResult_extract_toNat (e : NodeEntry) (i n : Nat) :
    ((nodeResult e).extractLsb' i n).toNat =
      (e.left.toNat * 2 ^ 16 + e.right.toNat) / 2 ^ i % 2 ^ n := by
  rw [BitVec.extractLsb'_toNat, Nat.shiftRight_eq_div_pow, nodeResult_toNat]

/-- Where the children stand in the result of NGET, the other bits being zero. -/
theorem nodeResult_fields (e : NodeEntry) :
    (nodeResult e).extractLsb' 16 9 = e.left ∧ (nodeResult e).extractLsb' 0 9 = e.right ∧
      (nodeResult e).extractLsb' 25 7 = 0 ∧ (nodeResult e).extractLsb' 9 7 = 0 := by
  have hl := e.left.isLt
  have hr := e.right.isLt
  refine ⟨BitVec.eq_of_toNat_eq ?_, BitVec.eq_of_toNat_eq ?_, BitVec.eq_of_toNat_eq ?_,
    BitVec.eq_of_toNat_eq ?_⟩ <;> rw [nodeResult_extract_toNat]
  · omega
  · omega
  · change _ = 0; omega
  · change _ = 0; omega

/-- `nodeAt` reads the arena inside it. -/
theorem getElem?_eq_nodeAt {nodes : List NodeEntry} {k : Nat} (h : k < nodes.length) :
    nodes[k]? = some (nodeAt nodes k) := by
  rw [nodeAt, List.getD_eq_getElem nodes _ h, List.getElem?_eq_getElem h]

section
variable {s : State} {k : BitVec 32}

/-- NGET of an internal node of the tree. -/
theorem exec_nget_of_lt (hv : s.tvalid = true) (hk : k.toNat < s.nint) :
    exec (.nget k) s =
      .next (s.withResponse (responseWord 0x00 0 (nodeResult (nodeAt s.node k.toNat)))) := by
  rw [exec, execNget, if_neg (by simp [hv]), if_pos (by simpa [indexBelow] using hk)]
  rfl

/-- NGET past the last internal node. -/
theorem exec_nget_of_le (hv : s.tvalid = true) (hk : s.nint ≤ k.toNat) :
    exec (.nget k) s = .next (s.withResponse (responseWord 0x07 0 k)) := by
  rw [exec, execNget, if_neg (by simp [hv]), if_neg (by simpa [indexBelow] using hk)]
  rfl

end

/-- Settles O31: an index below NSYM − 1 is one of the arena's, by the invariant of the tree. -/
theorem ngetReadsOneNode : Obligations.NgetReadsOneNode := by
  intro s k hs
  refine ⟨fun hv hk => ?_, fun hv hk => exec_nget_of_le hv hk, fun hv => exec_of_no_tree rfl hv⟩
  have hlt : k.toNat < s.node.length := (hs.tree hv).node_length ▸ hk
  exact ⟨nodeAt s.node k.toNat, nodeResult (nodeAt s.node k.toNat), getElem?_eq_nodeAt hlt,
    exec_nget_of_lt hv hk, nodeResult_fields _⟩

/-! ### CLEN -/

/-- With a tree CLEN answers CODE[s].len, 0 where there is no code. -/
theorem exec_clen {s : State} (hv : s.tvalid = true) (x : Symbol) :
    exec (.clen x) s =
      .next (s.withResponse (responseWord 0x00 (resultA (s.codeLength x)) 0)) := by
  rw [exec, execClen, if_neg (by simp [hv]), State.codeLength]
  cases Table.read s.code x <;> rfl

theorem State.codeLength_of_some {s : State} {x : Symbol} {p : BitSeq}
    (h : Table.read s.code x = some p) : s.codeLength x = p.length := by
  rw [State.codeLength, h, Option.getD_some]

theorem State.codeLength_of_none {s : State} {x : Symbol} (h : Table.read s.code x = none) :
    s.codeLength x = 0 := by
  rw [State.codeLength, h, Option.getD_none, List.length_nil]

/-- Settles O32: a code of the tree has 1 to 255 bits, so that its length is not truncated. -/
theorem clenReadsACodeLength : Obligations.ClenReadsACodeLength := by
  intro s x hs
  refine ⟨fun hv => ⟨_, exec_clen hv x, fun p hp => ?_, fun hn => ?_⟩,
    fun hv => exec_of_no_tree rfl hv⟩
  · obtain ⟨-, hcode, -⟩ := hs.memory_wf
    obtain ⟨hpos, hle⟩ := (hs.tree hv).code_length _ ((Table.read_eq_some hcode).1 hp)
    have hlen : (resultA (s.codeLength x)).toNat = p.length := by
      rw [State.codeLength_of_some hp, resultA, BitVec.toNat_ofNat]
      exact Nat.mod_eq_of_lt (Nat.lt_succ_of_le hle)
    exact ⟨hlen, hlen ▸ hpos⟩
  · rw [State.codeLength_of_none hn]
    rfl

end Sys2Proof.Machine
end

section
/-! The host access commands on the two buffers (40_host_access.md R87 to R92). -/

namespace Sys2Proof.Machine

theorem State.pushByte_bytelen (s : State) (b : Byte) : (s.pushByte b).bytelen = s.bytelen + 1 :=
  List.length_append

theorem State.pushBit_bitlen (s : State) (v : Bool) : (s.pushBit v).bitlen = s.bitlen + 1 :=
  List.length_append

/-- Settles O33. -/
theorem clearingABufferEmptiesIt : Obligations.ClearingABufferEmptiesIt := fun _ => ⟨rfl, rfl⟩

/-- Settles O34. -/
theorem pushbyAppendsOneByte : Obligations.PushbyAppendsOneByte := by
  intro s b
  refine ⟨fun (h : s.bytelen ≠ s.config.bytecap) => ?_, fun h => if_pos h⟩
  rw [exec, execPushby, if_neg h, State.pushByte_bytelen]
  rfl

/-- Settles O35. -/
theorem pushbiAppendsOneBit : Obligations.PushbiAppendsOneBit := by
  intro s v
  refine ⟨fun (h : s.bitlen ≠ s.config.bitcap) => ?_, fun h => if_pos h⟩
  rw [exec, execPushbi, if_neg h, State.pushBit_bitlen]
  rfl

/-- Settles O36. -/
theorem getbyReadsOneByte : Obligations.GetbyReadsOneByte := by
  refine fun s i => ⟨fun b hb => ?_, fun h => ?_⟩
  · rw [exec, execGetby, State.byteAt, indexOf, hb]
    rfl
  · rw [exec, execGetby, State.byteAt, indexOf, List.getElem?_eq_none h]
    rfl

/-- Settles O37. -/
theorem getbiReadsOneBit : Obligations.GetbiReadsOneBit := by
  refine fun s i => ⟨fun v hv => ?_, fun h => ?_⟩
  · rw [exec, execGetbi, State.bitAt, indexOf, hv, ← bitResult_eq]
    rfl
  · rw [exec, execGetbi, State.bitAt, indexOf, List.getElem?_eq_none h]
    rfl

end Sys2Proof.Machine
end

section
/-! The command BUILD as a whole (41_treebuilder.md R100, R101, R107 to R109, R113): what it answers on
an empty and on a non-empty table, and that it reads the table alone. -/

namespace Sys2Proof.Machine

/-! ### The table BUILD reads -/

theorem Table.eq_nil_of_read {α : Type} {t : Table α} (h : ∀ x, Table.read t x = none) : t = [] :=
  List.eq_nil_iff_forall_not_mem.2 fun e he => Table.read_eq_none.1 (h e.1) e he rfl

section
variable {s : State}

theorem State.freq_eq_nil (h : ∀ x, s.present x = false) : s.freq = [] :=
  Table.eq_nil_of_read fun x => Option.isSome_eq_false_iff.1 (h x) |> Option.isNone_iff_eq_none.1

theorem State.freq_ne_nil {x : Symbol} (h : s.present x = true) : s.freq ≠ [] := fun he => by
  rw [State.present, he] at h
  cases h

/-- FREQ reads what `present` and `weight` say. -/
theorem State.read_freq (s : State) (x : Symbol) :
    Table.read s.freq x = if s.present x then some (s.weight x) else none := by
  rw [State.present, State.weight]
  cases Table.read s.freq x <;> rfl

/-- Tables in canonical form that hold one mapping are one table. -/
theorem State.freq_ext {s' : State} (hw : Table.wf s.freq) (hw' : Table.wf s'.freq)
    (h : ∀ x, s.present x = s'.present x ∧ s.weight x = s'.weight x) : s.freq = s'.freq := by
  refine Table.ext_read hw hw' fun x => ?_
  obtain ⟨hpresent, hweight⟩ := h x
  rw [State.read_freq, State.read_freq, hpresent, hweight]

/-! ### What BUILD answers -/

theorem exec_build_of_none (h : buildTree s.freq = none) :
    exec .build s = .next (s.withResponse (responseWord 0x01 0 0)) := by
  rw [exec, execBuild, h]
  rfl

theorem exec_build_of_some {nodes : List NodeEntry} {r : NodeRef}
    (h : buildTree s.freq = some (nodes, r)) :
    exec .build s = .next ((s.commitTree nodes r).withResponse
      (responseWord 0x00 0 (resultD s.fcount))) := by
  rw [exec, execBuild, h]
  rfl

/-- On a non-empty table BUILD commits the tree of a sequence of merges of the initial entries. -/
theorem exec_build_spec (hw : Table.wf s.freq) (hx : ∃ x, s.present x = true) : ∃ nodes e,
    exec .build s = .next ((s.commitTree nodes e.ref).withResponse
      (responseWord 0x00 0 (resultD s.fcount))) ∧
    Built s.freq nodes e.ref ∧
    Relation.ReflTransGen MergeStep (initialEntries s, []) ({e}, nodes) := by
  obtain ⟨x, hx⟩ := hx
  obtain ⟨nodes, e, hb, hbuilt, hsteps⟩ := buildTree_spec hw (State.freq_ne_nil hx)
  rw [initialQueue_entries hw] at hsteps
  exact ⟨nodes, e, exec_build_of_some hb, hbuilt, hsteps⟩

/-- `exec_build_spec`, said of the state BUILD leaves. -/
theorem exec_build_next {t : State} (hw : Table.wf s.freq) (hx : ∃ x, s.present x = true)
    (h : exec .build s = .next t) : ∃ nodes e,
    t = (s.commitTree nodes e.ref).withResponse (responseWord 0x00 0 (resultD s.fcount)) ∧
    Built s.freq nodes e.ref ∧
    Relation.ReflTransGen MergeStep (initialEntries s, []) ({e}, nodes) := by
  obtain ⟨nodes, e, he, hbuilt, hsteps⟩ := exec_build_spec hw hx
  rw [h, Host.Outcome.next.injEq] at he
  exact ⟨nodes, e, he, hbuilt, hsteps⟩

end

/-- Settles O38. -/
theorem buildFailsOnAnEmptyTable : Obligations.BuildFailsOnAnEmptyTable := by
  intro s h
  apply exec_build_of_none
  rw [State.freq_eq_nil h, buildTree_nil]

/-- Settles O39: FCOUNT, which the model answers, counts the present symbols. -/
theorem buildSucceedsOnANonemptyTable : Obligations.BuildSucceedsOnANonemptyTable := by
  intro s hw hx
  obtain ⟨nodes, e, he, -, -⟩ := exec_build_spec hw hx
  refine ⟨nodes, e.ref, deriveCodes nodes e.ref, ?_⟩
  rw [he, State.commitTree, State.fcount_eq_presentCount hw, resultD]

/-- Settles O40. -/
theorem buildMergesTheTwoLeastEntries : Obligations.BuildMergesTheTwoLeastEntries := by
  intro s hw hx
  obtain ⟨nodes, e, he, -, hsteps⟩ := exec_build_spec hw hx
  exact ⟨_, e, he, hsteps, rfl⟩

/-- Settles O42. -/
theorem buildLeafSetIsTheSymbolSet : Obligations.BuildLeafSetIsTheSymbolSet := by
  intro s t hw hx h x
  obtain ⟨nodes, e, rfl, hbuilt, -⟩ := exec_build_next hw hx h
  exact hbuilt.leaf_iff hw x

/-- Settles O45: the queue of one entry is merged no further. -/
theorem buildOfOneSymbol : Obligations.BuildOfOneSymbol := by
  intro s x w hf
  have hb : buildTree s.freq = some ([], leafref x) := by rw [hf]; rfl
  have hc : deriveCodes [] (leafref x) = [(x, [false])] := by simp [deriveCodes, Table.write]
  rw [exec_build_of_some hb, State.commitTree, hc, State.fcount, hf]
  rfl

/-- Settles O47. -/
theorem buildDependsOnTheTableAlone : Obligations.BuildDependsOnTheTableAlone := by
  intro s s' t t' hw hw' ⟨x, hx⟩ hsame h h'
  have hf := State.freq_ext hw hw' hsame
  obtain ⟨nodes, e, hb, -, -⟩ := buildTree_spec hw (State.freq_ne_nil hx)
  rw [exec_build_of_some hb, Host.Outcome.next.injEq] at h
  rw [exec_build_of_some (hf ▸ hb), Host.Outcome.next.injEq] at h'
  subst h h'
  simp [State.fcount, hf]

end Sys2Proof.Machine
end

section
/-! The weights of the builder's queue (41_treebuilder.md R102, R104, R111): their sum is the same at
every point of every sequence of merges, and 40 bits hold it. -/

namespace Sys2Proof.Machine

/-! ### The present symbols -/

/-- The present symbols in rising order. -/
def State.symbols (s : State) : List Symbol :=
  ((List.range 256).map (BitVec.ofNat 8)).filter s.present

section
variable {s : State}

theorem State.mem_symbols {x : Symbol} : x ∈ s.symbols ↔ s.present x = true := by
  rw [State.symbols, List.mem_filter, List.mem_map, and_iff_right_iff_imp]
  exact fun _ => ⟨x.toNat, List.mem_range.2 x.isLt, by simp⟩

theorem State.symbols_nodup (s : State) : s.symbols.Nodup := by
  refine List.Nodup.filter _ (List.Nodup.map_on (fun a ha b hb hab => ?_) List.nodup_range)
  rw [List.mem_range] at ha hb
  have := congrArg BitVec.toNat hab
  rwa [BitVec.toNat_ofNat, BitVec.toNat_ofNat, Nat.mod_eq_of_lt ha, Nat.mod_eq_of_lt hb] at this

theorem State.symbols_length_le (s : State) : s.symbols.length ≤ 256 := by
  simpa [State.symbols] using List.length_filter_le s.present ((List.range 256).map (BitVec.ofNat 8))

theorem cost_eq (s : State) (len : Symbol → Nat) :
    cost s len = (s.symbols.map (fun x => (s.weight x).toNat * len x)).sum := rfl

theorem cost_mono {f g : Symbol → Nat} (h : ∀ x, s.present x = true → f x ≤ g x) :
    cost s f ≤ cost s g :=
  List.sum_le_sum fun x hx => Nat.mul_le_mul_left _ (h x (State.mem_symbols.1 hx))

/-- 256 weights of 32 bits sum to a number of 40 bits (41_treebuilder.md R111). -/
theorem cost_one_lt (s : State) : cost s (fun _ => 1) < 2 ^ 40 := by
  have hle : cost s (fun _ => 1) ≤ s.symbols.length * (2 ^ 32 - 1) := by
    rw [cost_eq, ← List.length_map (as := s.symbols)]
    refine List.sum_le_card_nsmul _ _ fun n hn => ?_
    obtain ⟨x, -, rfl⟩ := List.mem_map.1 hn
    have := (s.weight x).isLt
    omega
  have := s.symbols_length_le
  omega

/-! ### The weights of a queue -/

/-- The weights of a queue's entries, each times what `d` says of its reference, as a number. -/
def queueCost (d : NodeRef → Nat) (q : Multiset QueueEntry) : Nat :=
  (q.map (fun e => e.w.toNat * d e.ref)).sum

variable {d : NodeRef → Nat}

@[simp] theorem queueCost_cons (e : QueueEntry) (q : Multiset QueueEntry) :
    queueCost d (e ::ₘ q) = e.w.toNat * d e.ref + queueCost d q := by
  simp [queueCost]

theorem queueCost_singleton (e : QueueEntry) : queueCost d {e} = e.w.toNat * d e.ref := by
  simp [queueCost]

theorem zext40_toNat (w : Weight) : (zext40 w).toNat = w.toNat := by
  have := w.isLt
  rw [zext40, BitVec.toNat_setWidth]
  omega

theorem queueCost_initialEntries (d : NodeRef → Nat) (s : State) :
    queueCost d (initialEntries s) = cost s (fun x => d (leafref x)) := by
  simp [queueCost, initialEntries, cost, zext40_toNat, Function.comp_def]

/-- The weights of a queue as a number. -/
def queueWeight (q : Multiset QueueEntry) : Nat := (q.map (fun e => e.w.toNat)).sum

theorem queueWeight_eq_queueCost (q : Multiset QueueEntry) :
    queueWeight q = queueCost (fun _ => 1) q := by
  simp [queueWeight, queueCost]

@[simp] theorem queueWeight_cons (e : QueueEntry) (q : Multiset QueueEntry) :
    queueWeight (e ::ₘ q) = e.w.toNat + queueWeight q := by
  simp [queueWeight]

theorem queueWeight_initialEntries (s : State) :
    queueWeight (initialEntries s) = cost s (fun _ => 1) := by
  rw [queueWeight_eq_queueCost, queueCost_initialEntries]

/-- The sum of two weights of a queue does not wrap where the sum of all does not. -/
theorem queue_add_toNat {e₁ e₂ : QueueEntry} {q : Multiset QueueEntry}
    (h : queueWeight (e₁ ::ₘ e₂ ::ₘ q) < 2 ^ 40) :
    (e₁.w + e₂.w).toNat = e₁.w.toNat + e₂.w.toNat := by
  simp only [queueWeight_cons] at h
  rw [BitVec.toNat_add]
  omega

/-- A merge keeps the sum of the weights. -/
theorem MergeStep.queueWeight_eq {a b : Multiset QueueEntry × List NodeEntry} (h : MergeStep a b)
    (hlt : queueWeight a.1 < 2 ^ 40) : queueWeight b.1 = queueWeight a.1 := by
  obtain ⟨e₁, e₂, q, nodes, -, -⟩ := h
  simp only [queueWeight_cons, queue_add_toNat hlt, Nat.add_assoc]

theorem merges_queueWeight_eq {a b : Multiset QueueEntry × List NodeEntry}
    (h : Relation.ReflTransGen MergeStep a b) (hlt : queueWeight a.1 < 2 ^ 40) :
    queueWeight b.1 = queueWeight a.1 := by
  induction h with
  | refl => rfl
  | tail _ hs ih => rw [hs.queueWeight_eq (ih ▸ hlt), ih]

end

/-- Settles O41: the sum that every merge keeps is below 2^40 in the initial queue. -/
theorem queueWeightsNeverOverflow : Obligations.QueueWeightsNeverOverflow := by
  intro s q nodes h
  have hlt := cost_one_lt s
  refine ⟨?_, hlt⟩
  rw [← queueWeight_initialEntries] at hlt ⊢
  exact merges_queueWeight_eq h hlt

end Sys2Proof.Machine
end

section
/-! The lengths of a code of which no word begins another (41_treebuilder.md R110): they meet the
inequality of Kraft, and lengths that meet it can be exchanged until the two least weights merge. -/

namespace Sys2Proof.Machine

/-! ### The inequality of Kraft -/

/-- The sum of Kraft's inequality over code lengths. -/
noncomputable def kraft (lengths : Multiset Nat) : ℝ := (lengths.map (fun l => (1 / 2 : ℝ) ^ l)).sum

@[simp] theorem kraft_cons (l : Nat) (ls : Multiset Nat) :
    kraft (l ::ₘ ls) = (1 / 2) ^ l + kraft ls := by
  simp [kraft]

theorem two_pow_mul_half_pow (m : Nat) : (2 : ℝ) ^ m * (1 / 2) ^ m = 1 := by
  rw [← mul_pow]; norm_num

/-- Lengths up to `m` sum to a multiple of `2^-m`. -/
theorem exists_kraft_eq {m : Nat} (ls : Multiset Nat) (h : ∀ l ∈ ls, l ≤ m) :
    ∃ n : Nat, kraft ls = n * (1 / 2) ^ m := by
  induction ls using Multiset.induction with
  | empty => exact ⟨0, by simp [kraft]⟩
  | cons l ls ih =>
    obtain ⟨n, hn⟩ := ih fun k hk => h k (Multiset.mem_cons_of_mem hk)
    obtain ⟨k, rfl⟩ := Nat.exists_eq_add_of_le (h l (Multiset.mem_cons_self l ls))
    refine ⟨2 ^ k + n, ?_⟩
    rw [kraft_cons, hn, pow_add]
    push_cast
    linear_combination -(1 / 2 : ℝ) ^ l * two_pow_mul_half_pow k

/-- A word of length `m` and one other may be replaced by one word of length `m - 1` where no word left
is longer than `m`: without the other word the sum is a multiple of `2^-m` below 1, so that the code
has room for a second word of length `m`. -/
theorem kraft_merge {m l : Nat} {ls : Multiset Nat} (hls : ∀ k ∈ ls, k ≤ m)
    (h : kraft (l ::ₘ m ::ₘ ls) ≤ 1) : ∃ n, m = n + 1 ∧ kraft (n ::ₘ ls) ≤ 1 := by
  obtain ⟨c, hc⟩ := exists_kraft_eq ls hls
  simp only [kraft_cons] at h ⊢
  have hl : (0 : ℝ) < (1 / 2) ^ l := by positivity
  have hm := two_pow_mul_half_pow m
  have hpos : (0 : ℝ) < (1 / 2) ^ m := by positivity
  have hlt : c + 1 < 2 ^ m := by
    have : ((c : ℝ) + 1) * (1 / 2) ^ m < 2 ^ m * (1 / 2) ^ m := by rw [hm]; linarith
    exact_mod_cast lt_of_mul_lt_mul_right this hpos.le
  obtain _ | n := m
  · simp at hlt
  refine ⟨n, rfl, ?_⟩
  have hle : ((c : ℝ) + 2) * (1 / 2) ^ (n + 1) ≤ 2 ^ (n + 1) * (1 / 2) ^ (n + 1) :=
    mul_le_mul_of_nonneg_right (by exact_mod_cast hlt) hpos.le
  rw [hm] at hle
  rw [hc]
  rw [pow_succ (1 / 2 : ℝ) n] at hle ⊢
  linarith

/-! ### Codes of which no word begins another -/

section
variable {s : State} {c : Symbol → BitSeq}

/-- Words that begin one bit sequence are one symbol's. -/
theorem IsCodeFor.eq_of_append {x y : Symbol} {a b : BitSeq} (h : IsCodeFor s c)
    (hx : s.present x = true) (hy : s.present y = true) (he : c x ++ a = c y ++ b) : x = y := by
  obtain ⟨-, hfree⟩ := h
  by_contra hne
  rcases List.prefix_or_prefix_of_prefix (List.prefix_append (c x) a)
    (he ▸ List.prefix_append (c y) b) with hp | hp
  · exact hfree x y hx hy hne hp
  · exact hfree y x hy hx (Ne.symm hne) hp

/-- Non-empty codes of which none begins another are uniquely decodable. -/
theorem IsCodeFor.uniquelyDecodable (h : IsCodeFor s c) :
    InformationTheory.UniquelyDecodable ((s.symbols.toFinset.image c : Finset BitSeq) : Set BitSeq) := by
  obtain ⟨hnonempty, -⟩ := id h
  have hword : ∀ w ∈ ((s.symbols.toFinset.image c : Finset BitSeq) : Set BitSeq),
      ∃ x, s.present x = true ∧ c x = w := by
    simp [State.mem_symbols]
  intro ws
  induction ws with
  | nil =>
    rintro (_ | ⟨v, vs⟩) - hvs he
    · rfl
    · obtain ⟨y, hy, rfl⟩ := hword v (hvs v List.mem_cons_self)
      exact absurd (List.append_eq_nil_iff.1 he.symm).1 (hnonempty y hy)
  | cons w ws ih =>
    intro vs hws hvs he
    obtain ⟨x, hx, rfl⟩ := hword w (hws w List.mem_cons_self)
    obtain _ | ⟨v, vs⟩ := vs
    · exact absurd (List.append_eq_nil_iff.1 he).1 (hnonempty x hx)
    · obtain ⟨y, hy, rfl⟩ := hword v (hvs v List.mem_cons_self)
      rw [List.flatten_cons, List.flatten_cons] at he
      obtain rfl := h.eq_of_append hx hy he
      rw [ih vs (fun u hu => hws u (List.mem_cons_of_mem _ hu))
        (fun u hu => hvs u (List.mem_cons_of_mem _ hu)) (List.append_cancel_left he)]

/-- Non-empty codes of which none begins another meet the inequality of Kraft. -/
theorem IsCodeFor.kraft_le_one (h : IsCodeFor s c) :
    kraft (s.symbols.map (fun x => (c x).length)) ≤ 1 := by
  have hinj : ∀ x ∈ s.symbols.toFinset, ∀ y ∈ s.symbols.toFinset, c x = c y → x = y := by
    intro x hx y hy he
    rw [List.mem_toFinset, State.mem_symbols] at hx hy
    exact h.eq_of_append hx hy (congrArg (· ++ []) he)
  calc kraft (s.symbols.map (fun x => (c x).length))
      = ∑ w ∈ s.symbols.toFinset.image c, (1 / Fintype.card Bool : ℝ) ^ w.length := by
        rw [Finset.sum_image hinj, List.sum_toFinset _ s.symbols_nodup]
        simp [kraft, Function.comp_def]
    _ ≤ 1 := InformationTheory.kraft_mcmillan_inequality h.uniquelyDecodable

end

/-! ### The exchange -/

/-- The sum of weight times length over pairs (weight, length). -/
def weightedLength (a : Multiset (Nat × Nat)) : Nat := (a.map (fun p => p.1 * p.2)).sum

@[simp] theorem weightedLength_cons (p : Nat × Nat) (a : Multiset (Nat × Nat)) :
    weightedLength (p ::ₘ a) = p.1 * p.2 + weightedLength a := by
  simp [weightedLength]

/-- The weight of each present symbol, with the length of its word. -/
def weightsWithLengths (s : State) (c : Symbol → BitSeq) : Multiset (Nat × Nat) :=
  s.symbols.map (fun x => ((s.weight x).toNat, (c x).length))

theorem weightsWithLengths_fst (s : State) (c : Symbol → BitSeq) :
    (weightsWithLengths s c).map Prod.fst = (initialEntries s).map (fun e => e.w.toNat) := by
  simp [weightsWithLengths, initialEntries, State.symbols, zext40_toNat, Function.comp_def]

theorem weightsWithLengths_snd (s : State) (c : Symbol → BitSeq) :
    (weightsWithLengths s c).map Prod.snd = s.symbols.map (fun x => (c x).length) := by
  simp [weightsWithLengths, Function.comp_def]

theorem weightedLength_weightsWithLengths (s : State) (c : Symbol → BitSeq) :
    weightedLength (weightsWithLengths s c) = cost s (fun x => (c x).length) := by
  simp [weightedLength, weightsWithLengths, cost_eq, Function.comp_def]

/-- A least weight can have the greatest length without loss: exchange lengths with whatever weight
has a greater one. -/
theorem exists_exchange {w : Nat} (l : Nat) (a : Multiset (Nat × Nat)) (h : ∀ p ∈ a, w ≤ p.1) :
    ∃ m b, b.map Prod.fst = a.map Prod.fst ∧
      m ::ₘ b.map Prod.snd = l ::ₘ a.map Prod.snd ∧ (∀ p ∈ b, p.2 ≤ m) ∧
      w * m + weightedLength b ≤ w * l + weightedLength a := by
  induction a using Multiset.induction with
  | empty => exact ⟨l, 0, by simp⟩
  | cons p a ih =>
    obtain ⟨m, b, hfst, hsnd, hmax, hcost⟩ := ih fun q hq => h q (Multiset.mem_cons_of_mem hq)
    have hw := h p (Multiset.mem_cons_self p a)
    rcases le_total p.2 m with hm | hm
    · refine ⟨m, p ::ₘ b, by simp [hfst], ?_, by simpa [hm] using hmax, ?_⟩
      · rw [Multiset.map_cons, Multiset.map_cons, Multiset.cons_swap, hsnd, Multiset.cons_swap]
      · simp only [weightedLength_cons]
        omega
    · refine ⟨p.2, (p.1, m) ::ₘ b, by simp [hfst], ?_, ?_, ?_⟩
      · rw [Multiset.map_cons, Multiset.map_cons, hsnd, Multiset.cons_swap]
      · simpa [hm] using fun u v huv => (hmax (u, v) huv).trans hm
      · have := mul_add_mul_le_mul_add_mul hw hm
        simp only [weightedLength_cons]
        omega

theorem exists_cons_of_map_fst {a : Multiset (Nat × Nat)} {w : Nat} {ws : Multiset Nat}
    (h : a.map Prod.fst = w ::ₘ ws) : ∃ l b, a = (w, l) ::ₘ b ∧ b.map Prod.fst = ws := by
  obtain ⟨⟨_, l⟩, hmem, rfl, hrest⟩ := (Multiset.map_eq_cons _ _ _ _).2 h
  exact ⟨l, _, (Multiset.cons_erase hmem).symm, hrest⟩

theorem le_fst_of_map_fst {a : Multiset (Nat × Nat)} {w : Nat} {ws : Multiset Nat}
    (h : a.map Prod.fst = ws) (hw : ∀ v ∈ ws, w ≤ v) (p : Nat × Nat) (hp : p ∈ a) : w ≤ p.1 :=
  hw p.1 (h ▸ Multiset.mem_map_of_mem Prod.fst hp)

/-- Lengths for a set of weights give, at a cost less by the two least weights, lengths for the set in
which these two are merged: "the two lowest-weight items can always be placed at maximum tree depth
without loss" (41_treebuilder.md R110). -/
theorem exists_merged_lengths {w₁ w₂ : Nat} {ws : Multiset Nat} {a : Multiset (Nat × Nat)}
    (hfst : a.map Prod.fst = w₁ ::ₘ w₂ ::ₘ ws) (h₁ : ∀ w ∈ w₂ ::ₘ ws, w₁ ≤ w) (h₂ : ∀ w ∈ ws, w₂ ≤ w)
    (hk : kraft (a.map Prod.snd) ≤ 1) :
    ∃ b, b.map Prod.fst = (w₁ + w₂) ::ₘ ws ∧ kraft (b.map Prod.snd) ≤ 1 ∧
      weightedLength b + (w₁ + w₂) ≤ weightedLength a := by
  -- the least weight gets the greatest length, the second the greatest of the others
  obtain ⟨l, a₁, rfl, ha₁⟩ := exists_cons_of_map_fst hfst
  obtain ⟨l₁, b, hb, hbl, hmax, hcost⟩ := exists_exchange l a₁ (le_fst_of_map_fst ha₁ h₁)
  obtain ⟨m, b₁, rfl, hb₁⟩ := exists_cons_of_map_fst (hb.trans ha₁)
  obtain ⟨l₂, c, hc, hcl, hmax', hcost'⟩ := exists_exchange m b₁ (le_fst_of_map_fst hb₁ h₂)
  rw [Multiset.map_cons, ← hcl] at hbl
  have hle : l₂ ≤ l₁ := by
    have hmem : l₂ ∈ ((w₂, m) ::ₘ b₁).map Prod.snd := by
      rw [Multiset.map_cons, ← hcl]
      exact Multiset.mem_cons_self l₂ _
    obtain ⟨p, hp, rfl⟩ := Multiset.mem_map.1 hmem
    exact hmax p hp
  -- then the word that replaces both takes the lesser of the two lengths, less one
  rw [Multiset.map_cons, ← hbl] at hk
  obtain ⟨n, rfl, hk⟩ := kraft_merge (Multiset.forall_mem_map_iff.2 hmax') hk
  refine ⟨(w₁ + w₂, n) ::ₘ c, by rw [Multiset.map_cons, hc, hb₁], by rwa [Multiset.map_cons], ?_⟩
  have hmul := Nat.mul_le_mul_left w₁ hle
  simp only [weightedLength_cons, Nat.mul_succ, Nat.add_mul] at *
  omega

end Sys2Proof.Machine
end

section
/-! BUILD is optimal (41_treebuilder.md R110): each merge gives its two entries one edge more than the
node that replaces them, and by `exists_merged_lengths` no other code can do with less. -/

namespace Sys2Proof.Machine

/-! ### The cost of a sequence of merges -/

/-- `d` says how far from the root each reference of the tree is. -/
def IsDepth (nodes : List NodeEntry) (root : NodeRef) (d : NodeRef → Nat) : Prop :=
  ∀ r p, follow nodes root p = some r → d r = p.length

section
variable {nodes : List NodeEntry} {root : NodeRef} {d : NodeRef → Nat}

/-- Every reference has one depth, as it is reached along one path. -/
theorem Arena.exists_isDepth (h : Arena nodes) (hr : Inside nodes root) :
    ∃ d, IsDepth nodes root d := by
  have hex : ∀ r, ∃ n, ∀ p, follow nodes root p = some r → n = p.length := by
    intro r
    by_cases hp : ∃ p, follow nodes root p = some r
    · obtain ⟨p, hp⟩ := hp
      exact ⟨p.length, fun q hq => by rw [h.follow_inj hr hp hq]⟩
    · exact ⟨0, fun p h' => absurd ⟨p, h'⟩ hp⟩
  exact Classical.skolem.1 hex

theorem IsDepth.root_eq_zero (h : IsDepth nodes root d) : d root = 0 := h root [] rfl

theorem IsDepth.child_eq_succ (h : IsDepth nodes root d) {r : NodeRef} (hi : isInt r = true)
    (hr : ∃ p, follow nodes root p = some r) (b : Bool) : d (child nodes r b) = d r + 1 := by
  obtain ⟨p, hp⟩ := hr
  have hc : follow nodes root (p ++ [b]) = some (child nodes r b) := by
    rw [follow_append, hp, Option.bind_some, follow_cons, if_pos hi, follow_nil]
  rw [h r p hp, h _ _ hc, List.length_append, List.length_singleton]

end

/-- Merges only add to the arena. -/
theorem merges_prefix {a b : Multiset QueueEntry × List NodeEntry}
    (h : Relation.ReflTransGen MergeStep a b) : a.2 <+: b.2 := by
  induction h with
  | refl => exact List.prefix_rfl
  | tail _ hs ih =>
    obtain ⟨e₁, e₂, q, nodes, -, -⟩ := hs
    exact ih.trans (List.prefix_append _ _)

/-- The children of a node that a merge has added. -/
theorem child_of_prefix {nodes nodes' : List NodeEntry} {e : NodeEntry}
    (h : nodes ++ [e] <+: nodes') (hlt : nodes.length < 256) (b : Bool) :
    child nodes' (intref nodes.length) b = if b then e.right else e.left := by
  obtain ⟨rest, rfl⟩ := h
  simp [child, nodeAt, idx_intref hlt]

theorem LeastEntry.le {e f : QueueEntry} {q : Multiset QueueEntry} (h : LeastEntry e (e ::ₘ q))
    (hf : f ∈ q) : e.w.toNat ≤ f.w.toNat := by
  by_cases hfe : f = e
  · rw [hfe]
  · rcases h.2 f (Multiset.mem_cons_of_mem hf) hfe with hlt | ⟨heq, -⟩
    · exact Nat.le_of_lt hlt
    · rw [heq]

theorem LeastEntry.forall_le {e : QueueEntry} {q : Multiset QueueEntry}
    (h : LeastEntry e (e ::ₘ q)) : ∀ w ∈ q.map (fun f => f.w.toNat), e.w.toNat ≤ w :=
  Multiset.forall_mem_map_iff.2 fun _ hf => h.le hf

/-- The depths of the tree cost no more than any lengths that meet the inequality of Kraft, at every
point of the sequence of merges that built it. -/
theorem queueCost_le_of_merges {a : Multiset QueueEntry × List NodeEntry} {e : QueueEntry}
    {nodes : List NodeEntry} {d : NodeRef → Nat}
    (h : Relation.ReflTransGen MergeStep a ({e}, nodes)) (hsize : nodes.length ≤ 255)
    (hroot : d e.ref = 0)
    (hchild : ∀ k < nodes.length, ∀ b, d (child nodes (intref k) b) = d (intref k) + 1)
    (hlt : queueWeight a.1 < 2 ^ 40) {lengths : Multiset (Nat × Nat)}
    (hw : lengths.map Prod.fst = a.1.map (fun f => f.w.toNat))
    (hk : kraft (lengths.map Prod.snd) ≤ 1) : queueCost d a.1 ≤ weightedLength lengths := by
  induction h using Relation.ReflTransGen.head_induction_on generalizing lengths with
  | refl => rw [queueCost_singleton, hroot, Nat.mul_zero]; exact Nat.zero_le _
  | head hs hrest ih =>
    have hlt' := hs.queueWeight_eq hlt ▸ hlt
    obtain ⟨e₁, e₂, q, nodes', h₁, h₂⟩ := hs
    have hpre := merges_prefix hrest
    have hlen : nodes'.length < nodes.length := by simpa using hpre.length_le
    have hleft : d e₁.ref = d (intref nodes'.length) + 1 := by
      simpa [child_of_prefix hpre (by omega)] using hchild _ hlen false
    have hright : d e₂.ref = d (intref nodes'.length) + 1 := by
      simpa [child_of_prefix hpre (by omega)] using hchild _ hlen true
    have hadd := queue_add_toNat hlt
    simp only [Multiset.map_cons] at hw
    obtain ⟨merged, hw', hk', hcost⟩ :=
      exists_merged_lengths hw (by simpa using h₁.forall_le) h₂.forall_le hk
    have := ih hlt' (by rw [hw', Multiset.map_cons, hadd]) hk'
    simp only [queueCost_cons, hadd, hleft, hright, Nat.mul_succ, Nat.add_mul] at this ⊢
    omega

/-! ### The codebook -/

section
variable {s : State}

/-- No code of the codebook begins another symbol's (10_state.md R18). -/
theorem TreeInv.code_not_prefix (h : TreeInv s) (hw : Table.wf s.code) {x y : Symbol} {p q : BitSeq}
    (hx : Table.read s.code x = some p) (hy : Table.read s.code y = some q) (hne : x ≠ y) :
    ¬ p <+: q := by
  rintro ⟨rest, rfl⟩
  by_cases h1 : s.nsym.toNat = 1
  · obtain ⟨-, hrx⟩ := h.read_code_one hw h1 hx
    obtain ⟨-, hry⟩ := h.read_code_one hw h1 hy
    exact hne (leafref_inj.1 (hrx.symm.trans hry))
  · have h2 : 2 ≤ s.nsym.toNat := by have := h.nsym_range; omega
    have hfx := (h.read_code hw h2).1 hx
    have hfy := (h.read_code hw h2).1 hy
    rw [follow_append, hfx, Option.bind_some] at hfy
    cases rest with
    | nil => exact hne (leafref_inj.1 (Option.some.inj hfy))
    | cons b rest => simpa using (follow_cons_some hfy).1

/-- With two or more leaves a code is as long as its leaf is deep (42_codebook.md R124). -/
theorem TreeInv.codeLength_eq_depth (h : TreeInv s) (hw : Table.wf s.code) (h2 : 2 ≤ s.nsym.toNat)
    {d : NodeRef → Nat} (hd : IsDepth s.node s.root d) {x : Symbol} {p : BitSeq}
    (hx : Table.read s.code x = some p) : s.codeLength x = d (leafref x) := by
  rw [State.codeLength_of_some hx, hd _ p ((h.read_code hw h2).1 hx)]

/-- A child in the tree is one edge deeper than its parent. -/
theorem TreeInv.depth_child (h : TreeInv s) {d : NodeRef → Nat} (hd : IsDepth s.node s.root d)
    (k : Nat) (hk : k < s.node.length) (b : Bool) :
    d (child s.node (intref k) b) = d (intref k) + 1 :=
  hd.child_eq_succ (isInt_intref k) (exists_path h.arena h.refs_all (h.refs_all k hk)) b

/-- What BUILD leaves, as far as its optimality needs it: a tree with its codebook, whose symbols are
the present ones, built by merges. -/
theorem exec_build_treeInv {t : State} (hw : Table.wf s.freq) (hx : ∃ x, s.present x = true)
    (h : exec .build s = .next t) :
    TreeInv t ∧ Table.wf t.code ∧ (∀ x, t.codeValid x = true ↔ s.present x = true) ∧
      ∃ e, t.root = e.ref ∧
        Relation.ReflTransGen MergeStep (initialEntries s, []) ({e}, t.node) := by
  obtain ⟨nodes, e, rfl, hbuilt, hsteps⟩ := exec_build_next hw hx h
  exact ⟨(hbuilt.treeInv hw).congr rfl rfl rfl rfl, deriveCodes_wf e.ref, hbuilt.code_iff hw,
    e, rfl, hsteps⟩

/-- The codes BUILD leaves are non-empty and none begins another (42_codebook.md R123). -/
theorem exec_build_isCodeFor {t : State} (hw : Table.wf s.freq) (hne : ∃ x, s.present x = true)
    (h : exec .build s = .next t) : IsCodeFor s (fun x => (Table.read t.code x).getD []) := by
  obtain ⟨htree, hcode, hvalid, -⟩ := exec_build_treeInv hw hne h
  have hread : ∀ x, s.present x = true → ∃ p, Table.read t.code x = some p := fun x hx =>
    Option.isSome_iff_exists.1 ((hvalid x).2 hx)
  refine ⟨fun x hx => ?_, fun x y hx hy hxy => ?_⟩
  · obtain ⟨p, hp⟩ := hread x hx
    obtain ⟨hpos, -⟩ := htree.code_length _ ((Table.read_eq_some hcode).1 hp)
    simpa only [hp, Option.getD_some] using List.length_pos_iff.1 hpos
  · obtain ⟨p, hp⟩ := hread x hx
    obtain ⟨q, hq⟩ := hread y hy
    simpa only [hp, hq, Option.getD_some] using htree.code_not_prefix hcode hp hq hxy

/-- The one-bit code of a lone leaf is the shortest that is not empty. -/
theorem cost_le_of_one_leaf {t : State} (htree : TreeInv t) (hcode : Table.wf t.code)
    (h1 : t.nsym.toNat = 1) (hvalid : ∀ x, s.present x = true → t.codeValid x = true)
    {c : Symbol → BitSeq} (hc : IsCodeFor s c) :
    cost s t.codeLength ≤ cost s (fun x => (c x).length) := by
  refine cost_mono fun x hx => ?_
  obtain ⟨p, hp⟩ := Option.isSome_iff_exists.1 (hvalid x hx)
  obtain ⟨rfl, -⟩ := htree.read_code_one hcode h1 hp
  rw [State.codeLength_of_some hp]
  exact List.length_pos_iff.2 (hc.1 x hx)

/-- A tree built by merges costs no more than any codes that `IsCodeFor` allows. -/
theorem cost_le_of_merges {t : State} {e : QueueEntry} (htree : TreeInv t) (hcode : Table.wf t.code)
    (h2 : 2 ≤ t.nsym.toNat) (hvalid : ∀ x, s.present x = true → t.codeValid x = true)
    (hroot : t.root = e.ref)
    (hsteps : Relation.ReflTransGen MergeStep (initialEntries s, []) ({e}, t.node))
    {c : Symbol → BitSeq} (hc : IsCodeFor s c) :
    cost s t.codeLength ≤ cost s (fun x => (c x).length) := by
  obtain ⟨d, hd⟩ := htree.arena.exists_isDepth htree.root_inside
  have hlengths : cost s t.codeLength ≤ cost s (fun x => d (leafref x)) := by
    refine cost_mono fun x hx => ?_
    obtain ⟨p, hp⟩ := Option.isSome_iff_exists.1 (hvalid x hx)
    exact (htree.codeLength_eq_depth hcode h2 hd hp).le
  have hopt := queueCost_le_of_merges (d := d) hsteps htree.arena.size (hroot ▸ hd.root_eq_zero)
    (htree.depth_child hd) (queueWeight_initialEntries s ▸ cost_one_lt s)
    (weightsWithLengths_fst s c) (weightsWithLengths_snd s c ▸ hc.kraft_le_one)
  calc cost s t.codeLength
      ≤ cost s (fun x => d (leafref x)) := hlengths
    _ = queueCost d (initialEntries s) := (queueCost_initialEntries d s).symm
    _ ≤ weightedLength (weightsWithLengths s c) := hopt
    _ = cost s (fun x => (c x).length) := weightedLength_weightsWithLengths s c

end

/-- Settles O46: one leaf has the shortest code there is, and two or more are the leaves of a tree
built by merges. -/
theorem buildIsOptimal : Obligations.BuildIsOptimal := by
  intro s t hw hx h
  refine ⟨exec_build_isCodeFor hw hx h, fun c hc => ?_⟩
  obtain ⟨htree, hcode, hvalid, e, hroot, hsteps⟩ := exec_build_treeInv hw hx h
  obtain ⟨hpos, -⟩ := htree.nsym_range
  rcases hpos.eq_or_lt with h1 | h2
  · exact cost_le_of_one_leaf htree hcode h1.symm (fun x => (hvalid x).2) hc
  · exact cost_le_of_merges htree hcode h2 (fun x => (hvalid x).2) hroot hsteps hc

end Sys2Proof.Machine
end

section
/-! The codebook BUILD leaves (42_codebook.md R123, R124): how many codes it holds, that none begins
another, and that each is the one path to its leaf. -/

namespace Sys2Proof.Machine

section
variable {s t : State}

/-- A path from the root takes an edge from a node of the arena at most once, so NINT bounds its length
(42_codebook.md R124). -/
theorem TreeInv.follow_length_le_nint (h : TreeInv s) (h2 : 2 ≤ s.nsym.toNat) {p : BitSeq}
    {r : NodeRef} (hp : follow s.node s.root p = some r) : p.length ≤ s.nint := by
  have hi := h.root_int h2
  calc p.length
      ≤ idx s.root + 1 := h.arena.follow_length h.root_inside hi hp
    _ ≤ s.node.length := h.root_inside hi
    _ = s.nint := h.node_length

/-- BUILD leaves one code for each present symbol (42_codebook.md R123). -/
theorem exec_build_code_length (hw : Table.wf s.freq) (hx : ∃ x, s.present x = true)
    (h : exec .build s = .next t) : t.code.length = s.presentCount := by
  obtain ⟨nodes, e, rfl, hbuilt, -⟩ := exec_build_next hw hx h
  exact (hbuilt.code_length hw).trans (State.fcount_eq_presentCount hw)

/-- BUILD leaves the number of present symbols in NSYM (41_treebuilder.md R107). -/
theorem exec_build_nsym (hw : Table.wf s.freq) (hx : ∃ x, s.present x = true)
    (h : exec .build s = .next t) : t.nsym.toNat = s.presentCount := by
  obtain ⟨htree, -⟩ := exec_build_treeInv hw hx h
  rw [← htree.code_count, exec_build_code_length hw hx h]

end

/-- Settles O43. -/
theorem buildCodebookIsPrefixFree : Obligations.BuildCodebookIsPrefixFree := by
  intro s t hw hx h
  obtain ⟨htree, hcode, hvalid, -⟩ := exec_build_treeInv hw hx h
  exact ⟨exec_build_code_length hw hx h, hvalid, fun x y p q => htree.code_not_prefix hcode⟩

/-- Settles O44: with two or more leaves a code is read at a symbol just when it is a path to the
symbol's leaf, and a symbol has one code. -/
theorem buildCodeLengthIsLeafDepth : Obligations.BuildCodeLengthIsLeafDepth := by
  intro s t x hw hx h
  obtain ⟨htree, hcode, hvalid, -⟩ := exec_build_treeInv hw ⟨x, hx⟩ h
  obtain ⟨p, hp⟩ := Option.isSome_iff_exists.1 ((hvalid x).2 hx)
  obtain ⟨hpos, -⟩ := htree.code_length _ ((Table.read_eq_some hcode).1 hp)
  rw [← exec_build_nsym hw ⟨x, hx⟩ h]
  refine ⟨fun h2 => ⟨p, hp, fun q => ?_, hpos, ?_⟩, fun h1 => ?_⟩
  · rw [← htree.read_code hcode h2, hp, Option.some.injEq, eq_comm]
  · exact htree.follow_length_le_nint h2 ((htree.read_code hcode h2).1 hp)
  · obtain ⟨rfl, -⟩ := htree.read_code_one hcode h1 hp
    exact hp

end Sys2Proof.Machine
end

section
/-! ENCODE's result is the concatenation of the codes or the first byte that has none, and ENCODE, DECODE
and DECODES read only the inputs their rules name (43_encoder.md R130 to R134, 44_decoder.md R154). -/

namespace Sys2Proof.Machine

/-! ### What ENCODE answers -/

section
variable {s : State}

/-- ENCODE where every byte has a code, with the bits `acc` of all of them. -/
theorem exec_encode_of_ok {acc : BitSeq} (hv : s.tvalid = true)
    (h : encodeLoop s.code s.byteBuf 0 [] = .ok acc) :
    exec .encode s =
      if s.config.bitcap < acc.length then raise .capacityExceeded 0 (resultD acc.length) s
      else respond 0 (resultD acc.length) (s.putBits acc) := by
  rw [exec, execEncode, if_neg (by simp [hv]), h]

/-- ENCODE where byte `x` at index `j` is the first with no code. -/
theorem exec_encode_of_error {x : Symbol} {j : Nat} (hv : s.tvalid = true)
    (h : encodeLoop s.code s.byteBuf 0 [] = .error (x, j)) :
    exec .encode s = raise .unknownSymbol x (resultD j) s := by
  rw [exec, execEncode, if_neg (by simp [hv]), h]

end

/-- Settles O48: the loop gives the concatenation, and what is left is the test of the capacity. -/
theorem encodeConcatenatesTheCodes : Obligations.EncodeConcatenatesTheCodes := by
  intro s codes hv hcodes
  rw [exec_encode_of_ok hv (encodeLoop_of_codes hcodes 0 [])]
  exact ⟨fun hfits => if_neg (Nat.not_lt.2 hfits), fun hover => if_pos hover⟩

/-- Settles O49: the loop stops at the first unknown byte, before the test of the capacity. -/
theorem encodeReportsTheFirstUnknownSymbol : Obligations.EncodeReportsTheFirstUnknownSymbol := by
  intro s before x after hv hbytes hbefore hx
  have hnone : Table.read s.code x = none :=
    Option.isNone_iff_eq_none.1 (Option.isSome_eq_false_iff.1 hx)
  have hloop := encodeLoop_unknown (after := after) hbefore hnone 0 []
  rw [← hbytes, Nat.zero_add] at hloop
  exact exec_encode_of_error hv hloop

/-! ### What the transforms read -/

theorem Error.code_ne_ok (e : Error) : e.code ≠ 0x00 := by
  cases e <;> decide

/-- `o'` answers what `o` answers, and leaves the same in the buffer `buf` if the answer is OK. -/
def SameResult {β : Type} (buf : State → β) (o o' : Host.Outcome State Fault Refusal) : Prop :=
  ∀ t, o = .next t →
    ∃ t', o' = .next t' ∧ t'.rspreg = t.rspreg ∧ (t.status = 0x00 → buf t' = buf t)

section
variable {β : Type} {buf : State → β} {s s' : State}

/-- Responses with the same fields, after effects that leave the same in the buffer. -/
theorem sameResult_respond {a : BitVec 8} {d : BitVec 32}
    (hbuf : ∀ w, buf (s'.withResponse w) = buf (s.withResponse w)) :
    SameResult buf (respond a d s) (respond a d s') := by
  rintro t h
  cases h
  exact ⟨_, rfl, rfl, fun _ => hbuf _⟩

/-- An error's status is never OK, so the same error says nothing about the buffers. -/
theorem sameResult_raise (e : Error) (a : BitVec 8) (d : BitVec 32) :
    SameResult buf (raise e a d s) (raise e a d s') := by
  rintro t h
  cases h
  exact ⟨_, rfl, rfl, fun hok => absurd ((status_withResponse _ _ _ _).symm.trans hok) e.code_ne_ok⟩

theorem sameResult_ite {c : Prop} [Decidable c] {x y x' y' : Host.Outcome State Fault Refusal}
    (hx : SameResult buf x x') (hy : SameResult buf y y') :
    SameResult buf (if c then x else y) (if c then x' else y') := by
  split <;> assumption

/-- ENCODE reads TVALID, the parameter, CODE and BYTEBUF. -/
theorem exec_encode_sameResult (hv : s.tvalid = s'.tvalid) (hconfig : s.config = s'.config)
    (hcode : s.code = s'.code) (hbytes : s.byteBuf = s'.byteBuf) :
    SameResult State.bitBuf (exec .encode s) (exec .encode s') := by
  rw [exec, exec, execEncode, execEncode, hv, hconfig, hcode, hbytes]
  refine sameResult_ite (sameResult_raise _ _ _) ?_
  cases encodeLoop s'.code s'.byteBuf 0 [] with
  | error e => exact sameResult_raise _ _ _
  | ok acc => exact sameResult_ite (sameResult_raise _ _ _) (sameResult_respond fun _ => rfl)

/-- A decode command reads TVALID, the parameter, ROOT, NODE and BITBUF. -/
theorem runDecode_sameResult (m : DecodeMode) (hv : s.tvalid = s'.tvalid)
    (hconfig : s.config = s'.config) (hroot : s.root = s'.root) (hnode : s.node = s'.node)
    (hbits : s.bitBuf = s'.bitBuf) :
    SameResult State.byteBuf (runDecode m s) (runDecode m s') := by
  rw [runDecode, runDecode, hv, hconfig, hroot, hnode, hbits]
  refine sameResult_ite (sameResult_raise _ _ _) ?_
  cases decodeBits s'.node s'.root m s'.bitBuf with
  | unbounded => exact nofun
  | incomplete start => exact sameResult_raise _ _ _
  | done out => exact sameResult_ite (sameResult_raise _ _ _) (sameResult_respond fun _ => rfl)

end

/-- Settles O55: DECODE and DECODES are the two modes of one command. -/
theorem transformsArePure : Obligations.TransformsArePure := by
  refine ⟨fun s s' t hv hconfig hcode hbytes => exec_encode_sameResult hv hconfig hcode hbytes t,
    fun s s' t i hi hv hconfig hroot hnode hbits => ?_⟩
  have hsame := fun m => runDecode_sameResult m hv hconfig hroot hnode hbits t
  obtain rfl | rfl : i = .decode ∨ i = .decodes := by simpa using hi
  · exact hsame .flush
  · exact hsame .strict

end Sys2Proof.Machine
end

section
/-! DECODE and DECODES read off the greedy parse of BITBUF, which there is exactly one of; a lone leaf
gives its symbol for every bit; and what ENCODE wrote is decoded to what it read (44_decoder.md R146 to
R150). -/

namespace Sys2Proof.Machine

/-! ### What a decode command answers -/

/-- The answer of a decode command whose loop is left with the output `out` (44_decoder.md R140 lines 10
to 12). -/
def decodeAnswer (s : State) (out : List Symbol) : Host.Outcome State Fault Refusal :=
  .next (if out.length ≤ s.config.bytecap
    then { s with byteBuf := out }.withResponse (responseWord 0x00 0 (BitVec.ofNat 32 out.length))
    else s.withResponse (responseWord 0x06 0 (BitVec.ofNat 32 out.length)))

section
variable {s : State} {m : DecodeMode} {out : List Symbol}

theorem decodeAnswer_of_le (h : out.length ≤ s.config.bytecap) :
    decodeAnswer s out = .next ({ s with byteBuf := out }.withResponse
      (responseWord 0x00 0 (BitVec.ofNat 32 out.length))) :=
  congrArg Host.Outcome.next (if_pos h)

theorem decodeAnswer_of_lt (h : s.config.bytecap < out.length) :
    decodeAnswer s out = .next (s.withResponse
      (responseWord 0x06 0 (BitVec.ofNat 32 out.length))) :=
  congrArg Host.Outcome.next (if_neg (Nat.not_le.2 h))

theorem runDecode_of_done (hv : s.tvalid = true) (h : decodeBits s.node s.root m s.bitBuf = .done out) :
    runDecode m s = decodeAnswer s out := by
  rw [runDecode, if_neg (by simp [hv]), h]
  rcases Nat.lt_or_ge s.config.bytecap out.length with hover | hfits
  · rw [decodeAnswer_of_lt hover]
    exact if_pos hover
  · rw [decodeAnswer_of_le hfits]
    exact if_neg (Nat.not_lt.2 hfits)

theorem runDecode_of_incomplete {start : Nat} (hv : s.tvalid = true)
    (h : decodeBits s.node s.root m s.bitBuf = .incomplete start) :
    runDecode m s = .next (s.withResponse (responseWord 0x04 0 (BitVec.ofNat 32 start))) := by
  rw [runDecode, if_neg (by simp [hv]), h]
  rfl

end

/-! ### One leaf (44_decoder.md R148) -/

section
variable {s : State}

/-- With a leaf as the root the whole decode emits the root's symbol once for each bit of BITBUF: no
symbol is ever in flight, so no virtual bit is read. -/
theorem decodeBits_leaf {nodes : List NodeEntry} {root : NodeRef} (hl : isLeaf root = true)
    (m : DecodeMode) (bits : BitSeq) :
    decodeBits nodes root m bits = .done (List.replicate bits.length (sym root)) := by
  rw [decodeBits, decodeBound, Cursor.initial, Nat.add_comm bits.length 255]
  exact decodeLoop_leaf hl 254 0 0 bits []

/-- With one leaf the symbols of a sequence of codes are the root's, one for each bit. -/
theorem TreeInv.symbols_eq_replicate (h : TreeInv s) (hw : Table.wf s.code) (h1 : s.nsym.toNat = 1)
    {symbols : List Symbol} {codes : List BitSeq} (hc : CodesOf s symbols codes) :
    symbols = List.replicate codes.flatten.length (sym s.root) := by
  induction symbols generalizing codes with
  | nil =>
    obtain rfl : codes = [] := by simpa [CodesOf] using hc.symm
    rfl
  | cons x symbols ih =>
    cases codes with
    | nil => simp [CodesOf] at hc
    | cons p codes =>
      obtain ⟨hx, hrest⟩ := List.cons.inj hc
      obtain ⟨hp, hroot⟩ := h.read_code_one hw h1 hx
      have hsym : sym s.root = x := by rw [hroot, sym_leafref]
      rw [List.flatten_cons, hp, List.singleton_append, List.length_cons, List.replicate_succ,
        ← ih hrest, hsym]

end

/-! ### The parse (44_decoder.md R149) -/

section
variable {s : State}

/-- A sequence of codes parses into their symbols and no tail: with two or more leaves there is a code,
and every code goes on past the empty tail. -/
theorem TreeInv.parses_of_codes (h : TreeInv s) (hw : Table.wf s.code) (h2 : 2 ≤ s.nsym.toNat)
    {symbols : List Symbol} {codes : List BitSeq} (hc : CodesOf s symbols codes) :
    Parses s codes.flatten symbols [] := by
  obtain ⟨z, k, -, hz, -⟩ := h.int_tail hw h2 (tail := []) rfl (h.root_int h2)
  exact ⟨⟨codes, hc, (List.append_nil _).symm⟩, z, _, hz, List.nil_prefix, by simp⟩

/-- A symbol of a parse takes at least one bit, and the tail takes its own. -/
theorem TreeInv.parse_length (h : TreeInv s) (hw : Table.wf s.code) {bits tail : BitSeq}
    {symbols : List Symbol} (hp : Parses s bits symbols tail) :
    symbols.length + tail.length ≤ bits.length := by
  obtain ⟨⟨codes, hc, rfl⟩, -⟩ := hp
  rw [List.length_append]
  exact Nat.add_le_add_right (h.codes_length hw hc) _

theorem Parses.tail_suffix {bits tail : BitSeq} {symbols : List Symbol}
    (hp : Parses s bits symbols tail) : tail <:+ bits := by
  obtain ⟨⟨codes, -, rfl⟩, -⟩ := hp
  exact List.suffix_append _ _

/-- Two parses of one bit sequence have the same tail: strict mode reports where it begins. -/
theorem TreeInv.parse_tail_unique (h : TreeInv s) (hw : Table.wf s.code) (h2 : 2 ≤ s.nsym.toNat)
    {bits tail tail' : BitSeq} {symbols symbols' : List Symbol} (hp : Parses s bits symbols tail)
    (hp' : Parses s bits symbols' tail') : tail' = tail := by
  obtain ⟨hnone, hsome⟩ := h.decodeBits_parse hw h2 hp
  obtain ⟨hnone', hsome'⟩ := h.decodeBits_parse hw h2 hp'
  by_cases ht : tail = [] <;> by_cases ht' : tail' = []
  · rw [ht, ht']
  · cases (hnone ht .strict).symm.trans (hsome' ht').1
  · cases (hnone' ht' .strict).symm.trans (hsome ht).1
  · have hstart := DecodeEnd.incomplete.inj ((hsome ht).1.symm.trans (hsome' ht').1)
    have hle := hp.tail_suffix.length_le
    have hle' := hp'.tail_suffix.length_le
    exact (List.suffix_of_suffix_length_le hp'.tail_suffix hp.tail_suffix (by omega)).eq_of_length
      (by omega)

/-- Two parses of one bit sequence have the same symbols: flush mode returns them. -/
theorem TreeInv.parse_symbols_unique (h : TreeInv s) (hw : Table.wf s.code) (h2 : 2 ≤ s.nsym.toNat)
    {bits tail : BitSeq} {symbols symbols' : List Symbol} (hp : Parses s bits symbols tail)
    (hp' : Parses s bits symbols' tail) : symbols' = symbols := by
  obtain ⟨hnone, hsome⟩ := h.decodeBits_parse hw h2 hp
  obtain ⟨hnone', hsome'⟩ := h.decodeBits_parse hw h2 hp'
  by_cases ht : tail = []
  · exact DecodeEnd.done.inj ((hnone' ht .flush).symm.trans (hnone ht .flush))
  · obtain ⟨-, z, n, -, hz⟩ := hsome ht
    obtain ⟨-, z', n', -, hz'⟩ := hsome' ht
    exact (List.append_inj' (DecodeEnd.done.inj (hz'.symm.trans hz)) rfl).1

end

/-! ### Every tree -/

section
variable {s : State}

/-- In flush mode the loop is left on every bit sequence, with at most a symbol for each bit
(44_decoder.md R146, R152). -/
theorem TreeInv.exists_decodeBits_flush (h : TreeInv s) (hw : Table.wf s.code) (bits : BitSeq) :
    ∃ out, out.length ≤ bits.length ∧ decodeBits s.node s.root .flush bits = .done out := by
  obtain ⟨hpos, -⟩ := h.nsym_range
  rcases hpos.eq_or_lt with h1 | h2
  · exact ⟨_, (List.length_replicate).le, decodeBits_leaf (h.root_leaf h1.symm) .flush bits⟩
  · obtain ⟨symbols, tail, hp⟩ := h.exists_parse hw h2 bits
    obtain ⟨hnone, hsome⟩ := h.decodeBits_parse hw h2 hp
    have hlen := h.parse_length hw hp
    by_cases ht : tail = []
    · exact ⟨symbols, by omega, hnone ht .flush⟩
    · obtain ⟨-, z, n, -, hz⟩ := hsome ht
      have htail := List.length_pos_iff.2 ht
      exact ⟨symbols ++ [z], by simp; omega, hz⟩

/-- Decoding a sequence of codes gives their symbols, in both modes (44_decoder.md R150). -/
theorem TreeInv.decodeBits_codes (h : TreeInv s) (hw : Table.wf s.code) {symbols : List Symbol}
    {codes : List BitSeq} (hc : CodesOf s symbols codes) (m : DecodeMode) :
    decodeBits s.node s.root m codes.flatten = .done symbols := by
  obtain ⟨hpos, -⟩ := h.nsym_range
  rcases hpos.eq_or_lt with h1 | h2
  · rw [decodeBits_leaf (h.root_leaf h1.symm), ← h.symbols_eq_replicate hw h1.symm hc]
  · exact (h.decodeBits_parse hw h2 (h.parses_of_codes hw h2 hc)).1 rfl m

/-- ENCODE that ends with OK had a tree and a code for every byte, and wrote the codes to BITBUF. -/
theorem exec_encode_ok {t : State} (h : exec .encode s = .next t) (hok : t.status = 0x00) :
    s.tvalid = true ∧ ∃ codes, CodesOf s s.byteBuf codes ∧
      ∃ w, t = (s.putBits codes.flatten).withResponse w := by
  cases exec_ends h with
  | raised e a d ht =>
    rw [ht, status_withResponse] at hok
    exact absurd hok e.code_ne_ok
  | responded u a d ht heff hv =>
    obtain ⟨acc, hv, hloop, -, rfl⟩ := heff
    obtain ⟨codes, hc, rfl⟩ := encodeLoop_ok hloop
    exact ⟨hv, codes, hc, _, ht⟩

end

/-- Settles O50: the decoder returns what any parse says, so two parses agree. -/
theorem everyBitSequenceParsesOnce : Obligations.EveryBitSequenceParsesOnce := by
  intro s bits hs hv h2
  obtain ⟨-, hcode, -⟩ := hs.memory_wf
  have htree := hs.tree hv
  obtain ⟨symbols, tail, hp⟩ := htree.exists_parse hcode h2 bits
  refine ⟨symbols, tail, hp, fun symbols' tail' hp' => ?_⟩
  obtain rfl := htree.parse_tail_unique hcode h2 hp hp'
  exact ⟨htree.parse_symbols_unique hcode h2 hp hp', rfl⟩

/-- Settles O51. -/
theorem decodeReturnsTheGreedyParse : Obligations.DecodeReturnsTheGreedyParse := by
  intro s symbols tail hs hv h2 hp
  obtain ⟨-, hcode, -⟩ := hs.memory_wf
  obtain ⟨hnone, hsome⟩ := (hs.tree hv).decodeBits_parse hcode h2 hp
  refine ⟨fun ht => ⟨runDecode_of_done hv (hnone ht .flush), runDecode_of_done hv (hnone ht .strict)⟩,
    fun ht => ?_⟩
  obtain ⟨hstrict, z, n, hz, hflush⟩ := hsome ht
  exact ⟨runDecode_of_incomplete hv hstrict, z, n, hz, runDecode_of_done hv hflush⟩

/-- Settles O52. -/
theorem decodeOnASingleLeaf : Obligations.DecodeOnASingleLeaf := by
  intro s x hv hroot
  have hdone : ∀ m, decodeBits s.node s.root m s.bitBuf =
      .done (List.replicate s.bitBuf.length x) := fun m => by
    rw [hroot, decodeBits_leaf (isLeaf_leafref x), sym_leafref]
  have hanswer := fun m => runDecode_of_done hv (hdone m)
  rw [decodeAnswer, List.length_replicate] at hanswer
  exact ⟨hanswer .flush, hanswer .strict⟩

/-- Settles O53. -/
theorem flushDecodeNeverRejects : Obligations.FlushDecodeNeverRejects := by
  intro s hs hv
  obtain ⟨-, hcode, -⟩ := hs.memory_wf
  obtain ⟨out, hlen, hdone⟩ := (hs.tree hv).exists_decodeBits_flush hcode s.bitBuf
  have hanswer : exec .decode s = decodeAnswer s out := runDecode_of_done hv hdone
  exact ⟨out, hlen, fun hfits => hanswer.trans (decodeAnswer_of_le hfits),
    fun hover => hanswer.trans (decodeAnswer_of_lt hover)⟩

/-- Settles O54: the bytes came from BYTEBUF, so they fit it again. -/
theorem decodeInvertsEncode : Obligations.DecodeInvertsEncode := by
  intro s t junk hs h hok
  obtain ⟨-, hcode, -, hbytes, -⟩ := hs.memory_wf
  obtain ⟨hv, codes, hc, w, rfl⟩ := exec_encode_ok h hok
  have hdone := (hs.tree hv).decodeBits_codes hcode hc
  have hanswer := fun m =>
    (runDecode_of_done (s := { (s.putBits codes.flatten).withResponse w with byteBuf := junk })
      hv (hdone m)).trans (decodeAnswer_of_le hbytes)
  exact ⟨hanswer .flush, hanswer .strict⟩

end Sys2Proof.Machine
end

section
/-! Bit packing (45_bitpacking.md R160 to R163): UNPACK writes the bits of BYTEBUF, and PACK of the
bits of any bytes writes those bytes, so each inverts the other. -/

namespace Sys2Proof.Machine

/-! ### What the two commands do -/

theorem exec_unpack (s : State) :
    exec .unpack s = .next ((s.putBits (bytesToBits s.byteBuf)).withResponse
      (responseWord okCode 0 (resultD (8 * s.bytelen)))) := rfl

section
variable {s : State}

/-- PACK where it succeeds, since an aligned BITBUF is always the bits of some bytes
(`bytesToBits_surjective`). -/
theorem exec_pack_of_bits {bytes : List Byte} (h : s.bitBuf = bytesToBits bytes) :
    exec .pack s = .next ((s.putBytes bytes).withResponse
      (responseWord okCode 0 (resultD bytes.length))) := by
  have hlen : s.bitlen = 8 * bytes.length := by rw [State.bitlen, h, bytesToBits_length]
  rw [exec, execPack, if_neg (by omega), h, bitsToBytes_bytesToBits,
    show s.bitlen / 8 = bytes.length by omega]
  rfl

theorem exec_pack_of_unaligned (h : s.bitlen % 8 ≠ 0) :
    exec .pack s = raise .unalignedBitLength (resultA (s.bitlen % 8)) (resultD s.bitlen) s :=
  if_pos h

end

/-- Settles O57. -/
theorem unpackIsMsbFirst : Obligations.UnpackIsMsbFirst := fun s =>
  ⟨_, exec_unpack s, bytesToBits_length _, fun _ _ hb _ hj => bytesToBits_getElem? hb hj⟩

/-- Settles O58: an aligned BITBUF is the bits of some bytes, and PACK writes those bytes. -/
theorem packIsMsbFirstAndAligned : Obligations.PackIsMsbFirstAndAligned := by
  refine fun s => ⟨fun h8 => ?_, exec_pack_of_unaligned⟩
  obtain ⟨bytes, hbits⟩ := bytesToBits_surjective h8
  have hlen : bytes.length = s.bitBuf.length / 8 := by
    rw [hbits, bytesToBits_length, Nat.mul_div_cancel_left _ (by omega)]
  refine ⟨bytes, ?_, hlen, fun m b hb j hj => ?_⟩
  · rw [exec_pack_of_bits hbits, hlen]
    rfl
  · rw [hbits]
    exact bytesToBits_getElem? hb hj

/-- Settles O59: the BITBUF that UNPACK leaves is the bits of the old BYTEBUF. -/
theorem packInvertsUnpack : Obligations.PackInvertsUnpack := fun s _ =>
  ⟨_, exec_unpack s, status_withResponse _ _ _ _, exec_pack_of_bits rfl⟩

/-- Settles O60: PACK leaves in BYTEBUF the bytes whose bits the old BITBUF is. -/
theorem unpackInvertsPack : Obligations.UnpackInvertsPack := by
  intro s junk h8
  obtain ⟨bytes, hbits⟩ := bytesToBits_surjective h8
  refine ⟨_, exec_pack_of_bits hbits, status_withResponse _ _ _ _, ?_⟩
  rw [hbits, bytesToBits_length]
  exact exec_unpack _

end Sys2Proof.Machine
end

section
/-! Errors (60_exceptions.md): every command answers, an error writes nothing but the response, and
which command raises which error; all read off `exec_ends`. A word that no row of the opcode table
covers is answered IllegalCommand (R180). -/

namespace Sys2Proof.Machine

section
variable {i : Instr} {s t : State}

/-- A command leaves the core in RESP. -/
theorem exec_phase (h : exec i s = .next t) : t.phase = .resp := by
  cases exec_ends h with
  | raised e a d ht => rw [ht, State.withResponse_phase]
  | responded u a d ht => rw [ht, State.withResponse_phase]

/-- A command that does not answer OK has raised one of its errors. -/
theorem exec_raised (h : exec i s = .next t) (hst : t.status ≠ 0x00) :
    ∃ (e : Error) (a : BitVec 8) (d : BitVec 32), t = s.withResponse (responseWord e.code a d) ∧
      e.code ∈ mayRaise i ∧ (e = .noTree → s.tvalid = false) := by
  cases exec_ends h with
  | raised e a d ht he htree => exact ⟨e, a, d, ht, he, htree⟩
  | responded u a d ht => exact absurd (by rw [ht, status_withResponse, okCode]) hst

end

theorem Error.eq_noTree_of_code {e : Error} (h : e.code = 0x05) : e = .noTree := by
  revert h
  cases e <;> decide

/-- NoTree is listed for the tree-dependent commands alone (R171, R181). -/
theorem needsTree_of_mem_mayRaise {i : Instr} (h : 0x05 ∈ mayRaise i) : needsTree i = true := by
  cases i with
  | nget | clen | encode | decode | decodes => rfl
  | _ => simp [mayRaise] at h

/-- Settles O17. -/
theorem everyCommandAnswers : Obligations.EveryCommandAnswers := by
  intro i s hs
  obtain ⟨t, ht⟩ := exec_answers hs i
  exact ⟨t, ht, beq_iff_eq.2 (exec_phase ht)⟩

/-- Settles O18. -/
theorem erroringCommandWritesNoState : Obligations.ErroringCommandWritesNoState := by
  intro i s t h hst
  obtain ⟨e, a, d, ht, -, -⟩ := exec_raised h hst
  rw [ht, State.withResponse_rspreg]

/-- Settles O19. -/
theorem commandsRaiseOnlyTheirErrors : Obligations.CommandsRaiseOnlyTheirErrors := by
  intro i s t h
  refine or_iff_not_imp_left.2 fun hst => ?_
  obtain ⟨e, a, d, ht, he, -⟩ := exec_raised h hst
  rwa [ht, status_withResponse]

/-- Settles O21: without a tree the five commands raise NoTree before they read anything; and of the
errors NoTree alone has the status 0x05. -/
theorem treeCommandsRaiseNoTree : Obligations.TreeCommandsRaiseNoTree := by
  refine ⟨fun i s hi hv => exec_of_no_tree hi hv, fun i s t h hst => ?_⟩
  obtain ⟨e, a, d, ht, he, htree⟩ := exec_raised h (by rw [hst]; decide)
  have hcode : e.code = 0x05 := by rw [← hst, ht, status_withResponse]
  exact ⟨needsTree_of_mem_mayRaise (hcode ▸ he), htree (Error.eq_noTree_of_code hcode)⟩

/-! ### Words that are no command -/

/-- A word that no row covers is no command, since the word of every command is covered (R63). -/
theorem exists_decode_error {w : CmdWord} (h : ∀ r ∈ opcodeTable, r.covers w = false) :
    ∃ e, Sys2Proof.decode w = .error e := by
  cases hd : Sys2Proof.decode w with
  | error e => exact ⟨e, rfl⟩
  | ok i =>
    obtain ⟨r, hr, -, hc⟩ := encode_covered i
    rw [decode_eq_ok_iff.1 hd, h r hr] at hc
    exact absurd hc Bool.false_ne_true

theorem runCommand_of_decode_error {w : CmdWord} {e : Illegal} (h : Sys2Proof.decode w = .error e)
    (s : State) : runCommand w s = raise .illegalCommand (fieldsOf w).op (fieldsOf w).d s := by
  rw [runCommand, h]

/-- Settles O7. -/
theorem stepAnswersIllegalCommand : Obligations.StepAnswersIllegalCommand := by
  intro s w hp hr hw
  obtain ⟨e, he⟩ := exists_decode_error hw
  calc step s = runCommand w s.pinsUsed := step_run hr hp
    _ = raise .illegalCommand (fieldsOf w).op (fieldsOf w).d s.pinsUsed :=
      runCommand_of_decode_error he s.pinsUsed

end Sys2Proof.Machine
end

section
/-! Reset: it gives the state of 10_state.md R29 in one edge, and nothing else clears TVALID
(70_reset_and_hazards.md R190, R191). -/

namespace Sys2Proof.Machine

/-- The state right after a reset edge shows the values of R29 and its own parameter. -/
theorem State.resetEdge_shows (s : State) :
    (∀ x, s.resetEdge.present x = false ∧ s.resetEdge.weight x = 0) ∧ s.resetEdge.tvalid = false ∧
    s.resetEdge.nsym = 0 ∧ s.resetEdge.root = 0 ∧ s.resetEdge.bytelen = 0 ∧
    s.resetEdge.bitlen = 0 ∧ s.resetEdge.phase = .idle ∧ s.resetEdge.rspValid = false ∧
    s.resetEdge.cmdReady = true ∧ s.resetEdge.config = s.config :=
  ⟨fun _ => ⟨rfl, rfl⟩, rfl, rfl, rfl, rfl, rfl, rfl, rfl, rfl, rfl⟩

/-- A BUILD that fails keeps TVALID, and one that succeeds sets it (41_treebuilder.md R107). -/
theorem exec_build_keeps_tvalid {s t : State} (h : exec .build s = .next t) (hv : s.tvalid = true) :
    t.tvalid = true := by
  cases exec_ends h with
  | raised e a d ht => rw [ht, State.withResponse_tvalid, hv]
  | responded u a d ht hu =>
    obtain ⟨nodes, r, -, rfl⟩ := hu
    rw [ht]
    rfl

/-- Settles O11: without reset only a BUILD at its last edge writes TVALID, and a BUILD does not
clear it. -/
theorem resetEdgeGivesTheResetState : Obligations.ResetEdgeGivesTheResetState := by
  refine ⟨fun s hr => ⟨_, step_reset hr, s.pinsUsed.resetEdge_shows⟩, fun s t h hv ht => ?_⟩
  by_contra hr
  have hrst : s.pinsNow.rst = false := eq_false_of_ne_true hr
  have hkept : t.tvalid = true := by
    by_cases hbuild : ∃ w, s.phase = .busy w 0 ∧ Sys2Proof.decode w = .ok .build
    · obtain ⟨w, hp, hd⟩ := hbuild
      have hexec : exec .build s.pinsUsed = .next t :=
        (stepRunsTheDecodedCommand s w .build hp hrst hd).symm.trans h
      exact exec_build_keeps_tvalid hexec hv
    · obtain ⟨htvalid, -⟩ := treeChangesOnlyByBuildAndReset s t h hrst hbuild
      exact htvalid.trans hv
  exact absurd (ht.symm.trans hkept) Bool.false_ne_true

end Sys2Proof.Machine
end

section
/-! Progress: while no reset comes, the number of edges to go in BUSY falls to 0 and the command then
answers (70_reset_and_hazards.md R200). -/

namespace Sys2Proof.Machine

/-- The host drives `rst` = 0 at every coming edge. -/
def State.NoResetComing (s : State) : Prop := ∀ p ∈ s.pins, p.rst = false

/-- The core is in RESP after `k` edges, and in BUSY before each of them. -/
def AnswersAfter (k : Nat) (s : State) : Prop :=
  ∃ t, clockEdges k s = .next t ∧ t.rspValid = true ∧
    ∀ j < k, ∃ u, clockEdges j s = .next u ∧ u.rspValid = false ∧ u.cmdReady = false

section
variable {s t : State} {w : CmdWord} {edges k : Nat}

theorem State.NoResetComing.pinsNow_rst (h : s.NoResetComing) : s.pinsNow.rst = false := by
  rw [State.pinsNow]
  cases hp : s.pins with
  | nil => rfl
  | cons p ps => exact h p (hp ▸ List.mem_cons_self)

theorem State.NoResetComing.after_step (h : s.NoResetComing) (hstep : step s = .next t) :
    t.NoResetComing := by
  obtain ⟨-, hpins⟩ := stepKeepsTheParameter s t hstep
  intro p hp
  rw [hpins] at hp
  exact h p (List.mem_of_mem_tail hp)

theorem answersAfter_zero (h : s.phase = .resp) : AnswersAfter 0 s :=
  ⟨s, rfl, beq_iff_eq.2 h, nofun⟩

/-- An edge in BUSY goes before the edges that follow it. -/
theorem AnswersAfter.succ (h : AnswersAfter k t) (hp : s.phase = .busy w edges)
    (hstep : step s = .next t) : AnswersAfter (k + 1) s := by
  obtain ⟨u, hu, hresp, hbefore⟩ := h
  refine ⟨u, (clockEdges_succ hstep k).trans hu, hresp, fun j hj => ?_⟩
  cases j with
  | zero => exact ⟨s, rfl, by rw [State.rspValid, hp]; rfl, by rw [State.cmdReady, hp]; rfl⟩
  | succ j =>
    rw [clockEdges_succ hstep]
    exact hbefore j (Nat.lt_of_succ_lt_succ hj)

end

/-- From BUSY the answer comes at the last edge of BUSY. -/
theorem answersAfter_of_busy {w : CmdWord} (edges : Nat) {s : State} (hs : CoreInv s)
    (hreset : s.NoResetComing) (hp : s.phase = .busy w edges) : AnswersAfter (edges + 1) s := by
  induction edges generalizing s with
  | zero =>
    have hpins : CoreInv s.pinsUsed := hs.withInterface s.pins.tail s.accepted hs.response
    obtain ⟨t, ht⟩ := runCommand_answers hpins w
    have hstep : step s = .next t := (step_run hreset.pinsNow_rst hp).trans ht
    exact (answersAfter_zero (runCommand_phase ht)).succ hp hstep
  | succ edges ih =>
    have hstep : step s = .next (s.pinsUsed.stayBusy w edges) := step_busy hreset.pinsNow_rst hp
    have hnext : CoreInv (s.pinsUsed.stayBusy w edges) := everyStepKeepsTheInvariant _ _ hs hstep
    exact (ih hnext (hreset.after_step hstep) rfl).succ hp hstep

/-- Settles O13: the first edge accepts the command, and `answersAfter_of_busy` is the rest. -/
theorem acceptedCommandIsAnswered : Obligations.AcceptedCommandIsAnswered := by
  intro s hs hp hr hvalid hreset
  have hstep : step s = .next (s.pinsUsed.acceptCommand s.pinsNow.cmdWord) := by
    rw [step_idle hr hp, if_pos hvalid]
  have hnext : CoreInv (s.pinsUsed.acceptCommand s.pinsNow.cmdWord) :=
    everyStepKeepsTheInvariant _ _ hs hstep
  obtain ⟨t, ht, hresp, hbusy⟩ := answersAfter_of_busy (Config.busyEdges s.accepted) hnext
    (State.NoResetComing.after_step hreset hstep) rfl
  refine ⟨Config.busyEdges s.accepted + 2, t, by omega, (clockEdges_succ hstep _).trans ht, hresp,
    fun j hpos hj => ?_⟩
  obtain ⟨j, rfl⟩ := Nat.exists_eq_add_of_le' hpos
  rw [clockEdges_succ hstep]
  exact hbusy j (Nat.lt_of_succ_lt_succ hj)

end Sys2Proof.Machine
end

section
/-! The tree is a snapshot of the table: the commands that need a tree do not read FREQ
(70_reset_and_hazards.md R194). -/

namespace Sys2Proof.Machine

/-- The state with another content of FREQ. -/
def State.withFreq (s : State) (freq : Table Weight) : State := { s with freq := freq }

section
variable (s : State) (freq : Table Weight)

@[simp] theorem State.withFreq_root : (s.withFreq freq).root = s.root := rfl

@[simp] theorem State.withFreq_node : (s.withFreq freq).node = s.node := rfl

@[simp] theorem State.withFreq_code : (s.withFreq freq).code = s.code := rfl

@[simp] theorem State.withFreq_byteBuf : (s.withFreq freq).byteBuf = s.byteBuf := rfl

@[simp] theorem State.withFreq_bitBuf : (s.withFreq freq).bitBuf = s.bitBuf := rfl

end

/-- `o'` goes on as `o` does, but with the table given. -/
def GoesWithFreq (freq : Table Weight) (o o' : Host.Outcome State Fault Refusal) : Prop :=
  ∀ t, o = .next t → o' = .next (t.withFreq freq)

section
variable {s : State} {freq : Table Weight}

theorem goesWithFreq_respond (a : BitVec 8) (d : BitVec 32) :
    GoesWithFreq freq (respond a d s) (respond a d (s.withFreq freq)) := by
  rintro t h; cases h; rfl

theorem goesWithFreq_raise (e : Error) (a : BitVec 8) (d : BitVec 32) :
    GoesWithFreq freq (raise e a d s) (raise e a d (s.withFreq freq)) := by
  rintro t h; cases h; rfl

theorem goesWithFreq_ite {c : Prop} [Decidable c] {x y x' y' : Host.Outcome State Fault Refusal}
    (hx : GoesWithFreq freq x x') (hy : GoesWithFreq freq y y') :
    GoesWithFreq freq (if c then x else y) (if c then x' else y') := by
  split <;> assumption

theorem runDecode_goesWithFreq (m : DecodeMode) :
    GoesWithFreq freq (runDecode m s) (runDecode m (s.withFreq freq)) := by
  refine goesWithFreq_ite (goesWithFreq_raise _ _ _) ?_
  rw [State.withFreq_node, State.withFreq_root, State.withFreq_bitBuf]
  cases decodeBits s.node s.root m s.bitBuf with
  | unbounded => exact nofun
  | incomplete start => exact goesWithFreq_raise _ _ _
  | done out =>
    exact goesWithFreq_ite (goesWithFreq_raise _ _ _) (goesWithFreq_respond (s := s.putBytes out) _ _)

/-- A command that needs a tree does the same whatever the table is. -/
theorem exec_goesWithFreq {i : Instr} (hi : needsTree i = true) :
    GoesWithFreq freq (exec i s) (exec i (s.withFreq freq)) := by
  have hraise := goesWithFreq_raise (s := s) (freq := freq)
  have hrespond := goesWithFreq_respond (s := s) (freq := freq)
  cases i with
  | nget k => exact goesWithFreq_ite (hraise _ _ _) (goesWithFreq_ite (hrespond _ _) (hraise _ _ _))
  | clen x =>
    refine goesWithFreq_ite (hraise _ _ _) ?_
    rw [State.withFreq_code]
    cases Table.read s.code x <;> exact hrespond _ _
  | encode =>
    refine goesWithFreq_ite (hraise _ _ _) ?_
    rw [State.withFreq_code, State.withFreq_byteBuf]
    cases encodeLoop s.code s.byteBuf 0 [] with
    | error e => exact hraise _ _ _
    | ok acc => exact goesWithFreq_ite (hraise _ _ _) (goesWithFreq_respond (s := s.putBits acc) _ _)
  | decode => exact runDecode_goesWithFreq .flush
  | decodes => exact runDecode_goesWithFreq .strict
  | _ => exact absurd hi Bool.false_ne_true

end

/-- Settles O56. -/
theorem treeIsASnapshotOfTheTable : Obligations.TreeIsASnapshotOfTheTable :=
  fun _ t _ _ hi h => exec_goesWithFreq hi t h

end Sys2Proof.Machine
end
